-- ==== Sys2Proof/Word.lean ====
section
/-! DEFINITION. The word types of ember-arch CORE and the closed sets of names its fields take
(00_scope.md R6, R7, R9; 30_encoding.md R67). No meaning stands here. -/

namespace Sys2Proof

/-- A register value, an instruction word, an address: 16 bits (R5, R11, R40, R60). -/
abbrev Word := BitVec 16

/-- One memory byte (R40). -/
abbrev Byte := BitVec 8

/-- The 8-bit or 16-bit context: selects N for the ALU and a triple of flags (R9, R17). -/
inductive Width
  | w8
  | w16
  deriving DecidableEq, Repr, Inhabited

/-- N of a width (R122). -/
abbrev Width.bits : Width → Nat
  | .w8 => 8
  | .w16 => 16

/-- Which byte of a 16-bit value lies at the lower address (R43, R46). -/
inductive ByteOrder
  | little
  | big
  deriving DecidableEq, Repr, Inhabited

/-- Operation's source mode (R67, R83). -/
inductive SourceMode
  | immediate
  | register
  | memoryLE
  | memoryBE
  deriving DecidableEq, Repr

/-- Load's addressing mode (R67, R94). -/
inductive LoadMode
  | immediate
  | directAddress
  | register
  | addressRegisterIndirect
  deriving DecidableEq, Repr

/-- Store's addressing mode (R67, R94). -/
inductive StoreMode
  | directAddress
  | addressRegisterIndirect
  deriving DecidableEq, Repr

/-- The two stack families, 0110 StackRead and 0111 StackWrite (R103, R104). -/
inductive StackKind
  | stackRead
  | stackWrite
  deriving DecidableEq, Repr

/-- The two families whose memory modes are named direct address and address-register-indirect
(R94): the driver's address formula may depend on which it is. -/
inductive Access
  | load
  | store
  deriving DecidableEq, Repr

/-- ALUSettings: five independent booleans (R9, R121). -/
structure AluSettings where
  invertA : Bool
  invertB : Bool
  floodCarry : Bool
  carryIn : Bool
  orMode : Bool
  deriving DecidableEq, Repr

/-- The three error kinds an operation of the block can return (R8, R160 to R163). -/
inductive BlockError
  /-- Register index outside 0 to 3 (R161). -/
  | invalidRegister (index : Nat)
  /-- Flag index outside 0 to 3 (R162). -/
  | invalidFlag (index : Nat)
  /-- A word of family 0101 or 1000 to 1110, with its 4-bit family (R163). -/
  | invalidOpcode (family : BitVec 4)
  deriving DecidableEq, Repr

end Sys2Proof
end

