-- ==== Sys2Proof/Syntax.lean ====
section
/-! DEFINITION. The instructions: one constructor per row of spec/opcode_table.json, with the row's
fields (30_encoding.md R63). Every field has exactly the width the encoding gives it, so field
combinations the layout cannot express are unrepresentable (R30, R64). -/

namespace Sys2Proof

/-- One constructor per row of the opcode table. The don't-care bits of R66 are not carried. The
INVALID rows are the decoder's error verdicts, listed in the table so that it partitions all 65536
words (R111; log 30). -/
inductive Instr
  /-- Family 0000 (R80): the a register is also the destination. -/
  | op (a : BitVec 2) (mode : SourceMode) (settings : AluSettings) (is8bit unitOther : Bool)
  /-- Family 0001 (R81): the destination is slot 0. -/
  | cmp (a : BitVec 2) (mode : SourceMode) (settings : AluSettings) (is8bit unitOther : Bool)
  /-- Family 0010 (R90). -/
  | load (dest base : BitVec 2) (mode : LoadMode) (endianBit widthBit : Bool) (shift : BitVec 3)
  /-- Family 0011 (R91). -/
  | store (source base : BitVec 2) (mode : StoreMode) (endianBit widthBit : Bool) (shift : BitVec 3)
  /-- Family 0100 (R100). -/
  | jump (base : BitVec 2) (shift : BitVec 3) (inverted : Bool) (flagIndex : BitVec 2) (call : Bool)
  /-- Family 0110 (R103), with the raw fields word[7:5], word[4:2], word[1:0]. -/
  | sread (register base : BitVec 2) (shiftRaw deltaCount : BitVec 3) (deltaBase : BitVec 2)
  /-- Family 0111 (R104), with the raw fields word[7:5], word[4:2], word[1:0]. -/
  | swrite (register base : BitVec 2) (shiftRaw deltaCount : BitVec 3) (deltaBase : BitVec 2)
  /-- Family 1111 (R110). -/
  | more (secondary : BitVec 12)
  | invalid5
  | invalid8
  | invalid9
  | invalidA
  | invalidB
  | invalidC
  | invalidD
  | invalidE
  deriving DecidableEq, Repr

end Sys2Proof
end

