-- ==== Sys2Proof/Config.lean ====
section
/-! DEFINITION. The open parameters of the spec (00_scope.md R5) as uninterpreted constants, and the
plain data by which the driver speaks to the block (45_execute_contract.md R140, R141, R152).
Nothing in Lean can evaluate a constant of this file: a theorem about the model holds whatever it
is. The defaults R5 suggests are supported by no source and are not used. -/

namespace Sys2Proof

/-- What the driver brings from outside the word for the word it presents (R141): "the immediate,
or the number of the source register, or the memory address". -/
structure Inputs where
  immediate : Word
  register : BitVec 2
  address : Word
  deriving DecidableEq, Repr

/-- An operation of the block that the driver may call between two words (R140, R152). -/
inductive BlockOp
  /-- `decode(word)` (R61). -/
  | decode (word : Word)
  /-- `combine_N(a, b, s)` with the optional flag write into a slot the caller selects (R120, R125);
  at 8 bits the operands are the low bytes (the model's form of the call, log 32). -/
  | combine (width : Width) (a b : Word) (settings : AluSettings) (flagsOut : Option Width)
  /-- `reg_read(index)` (R12). -/
  | regRead (index : Nat)
  /-- `reg_write(index, value)` (R13). -/
  | regWrite (index : Nat) (value : Word)
  /-- `flag_get(index, w)` (R19). -/
  | flagGet (index : Nat) (width : Width)
  /-- `flag_set(index, value, w)` (R20). -/
  | flagSet (index : Nat) (value : Bool) (width : Width)
  /-- `MemRead(addr, 1)` (R42). -/
  | memRead8 (address : Word)
  /-- `MemRead(addr, 2)` (R43) or `MemReadBE(addr, 2)` (R46). -/
  | memRead16 (order : ByteOrder) (address : Word)
  /-- `MemWrite(addr, 1, v)` (R42). -/
  | memWrite8 (address : Word) (value : Byte)
  /-- `MemWrite(addr, 2, v)` (R44) or `MemWriteBE(addr, 2, v)` (R46). -/
  | memWrite16 (order : ByteOrder) (address value : Word)
  deriving DecidableEq, Repr

/-- Where the word the driver presents comes from: the source does not say (R25, R47, D13). -/
inductive WordSource
  /-- The driver hands the word over. -/
  | given (word : Word)
  /-- The driver fetches it from memory at its program counter, in an order of its own (R55). -/
  | atPc (order : ByteOrder)
  deriving DecidableEq, Repr

/-- One thing the driver does (R152): present a word with what it brings for it, or call a block
operation. DESIGN CHOICE, log 36: no action sets the driver's own program counter or stack pointer (R25, R26
leave both to the driver); they change only when a presented word executes. -/
inductive DriverAction
  | present (source : WordSource) (inputs : Inputs)
  | perform (op : BlockOp)
  deriving DecidableEq, Repr

/-! ### Open parameters of the block's encoding and execution contract -/

/-- `STACK_SHIFT(family, word[7:5])` (R105, D6). DESIGN CHOICE: uninterpreted, log 22. -/
opaque Config.stackShift : StackKind → BitVec 3 → Nat

/-- `LS_WIDTH_POLARITY`: the value of Load and Store bit 4 that means 8-bit (R93, D8). DESIGN CHOICE:
uninterpreted, log 17. -/
opaque Config.lsEightBitWhen : Bool

/-- `LS_ENDIAN_POLARITY`: the value of Load and Store bit 5 that means big-endian (R93, D8). DESIGN
CHOICE: uninterpreted, log 17. -/
opaque Config.lsBigEndianWhen : Bool

/-- `W8_WRITEBACK`: bits 15:8 of the destination after an 8-bit Operation, from the destination's old
value and the 8-bit result (R142, D11, U10). DESIGN CHOICE: uninterpreted, log 10. -/
opaque Config.w8HighByte : (old : Word) → (result : Byte) → Byte

/-- `JUMP_COND_WIDTH`: the width slot a Jump's condition reads (R146, D12). DESIGN CHOICE:
uninterpreted, log 11. -/
opaque Config.jumpCondWidth : Width

/-! ### The open parameter DRIVER (R5, R147, R148, D9): the formulas the source does not give -/

/-- Whether the driver reads two bytes (and so takes the second as the low byte) for a big-endian
memory operand of an 8-bit Operation, or one (R49, R142). DESIGN CHOICE: uninterpreted, log 8. -/
opaque Config.op8BigReadsWord : Bool

/-- The program counter after a word that does not redirect it, from the instruction, what the driver
brought for it, and the program counter (R25, R71, N9). DESIGN CHOICE: uninterpreted, log 14. -/
opaque Config.nextPc : Instr → Inputs → (pc : Word) → Word

/-- The effective address of the direct-address mode, from the supplied address, the base register's
value and the shift (R92, R94, R148, N2). DESIGN CHOICE: uninterpreted, log 15. -/
opaque Config.directAddress : Access → (address base : Word) → (shift : BitVec 3) → Word

/-- The effective address of the address-register-indirect mode, from register contents and the shift
(R92, R94, R148, N2). DESIGN CHOICE: uninterpreted, log 15. -/
opaque Config.indirectAddress : Access → (register base : Word) → (shift : BitVec 3) → Word

/-- What a 16-bit Load in the immediate or register mode loads, from the operand (the immediate, or
the register's value), the base register's value, the shift and the endianness bit (R94, R148).
DESIGN CHOICE: uninterpreted, log 16. -/
opaque Config.loadDatum16 : LoadMode → (endianBit : Bool) → (operand base : Word) → (shift : BitVec 3) → Word

/-- The same for an 8-bit Load (R94, R148). DESIGN CHOICE: uninterpreted, log 16. -/
opaque Config.loadDatum8 : LoadMode → (endianBit : Bool) → (operand base : Word) → (shift : BitVec 3) → Byte

/-- Bits 15:8 of the destination after an 8-bit Load (R148, N30). DESIGN CHOICE: uninterpreted, log 18. -/
opaque Config.loadHighByte : (old : Word) → (loaded : Byte) → Byte

/-- Whether an 8-bit Store writes bits 15:8 of the source register, or bits 7:0 (R148, N30). DESIGN
CHOICE: uninterpreted, log 19. -/
opaque Config.storesHighByte : Bool

/-- A Jump's target, from what the driver brought, the program counter, the base register's value, the
shift and the call bit (R147, N3). DESIGN CHOICE: uninterpreted, log 12. -/
opaque Config.jumpTarget : Inputs → (pc base : Word) → (shift : BitVec 3) → (call : Bool) → Word

/-- The block operations by which the driver saves the return address of a taken subroutine call, called
after the Jump's own step (R102, R147, N3). DESIGN CHOICE: uninterpreted, log 13. -/
opaque Config.callSave : Inputs → (pc sp target : Word) → List BlockOp

/-- The stack pointer after a taken subroutine call (R147, N3, N5). DESIGN CHOICE: uninterpreted, log 13. -/
opaque Config.callSp : Inputs → (pc sp target : Word) → Word

/-- Whether the register of a StackRead (of a StackWrite) is written from memory, or read and written
to memory (R16, N12). DESIGN CHOICE: uninterpreted, log 21. -/
opaque Config.stackWritesRegister : StackKind → Bool

/-- The address a StackRead or StackWrite accesses, from what the driver brought, the stack pointer,
the base register's value, the shift and the delta (R148, N2, N5). DESIGN CHOICE: uninterpreted, log 21. -/
opaque Config.stackAddress : StackKind → Inputs → (sp base : Word) → (shift delta : Nat) → Word

/-- The stack pointer after a StackRead or StackWrite, from the values before the access (R26, R106, R148,
N5). DESIGN CHOICE: uninterpreted, log 21. -/
opaque Config.stackNextSp : StackKind → Inputs → (sp base : Word) → (shift delta : Nat) → Word

/-- The width a StackRead or StackWrite moves; its word has no width bit (R63, R148). DESIGN CHOICE:
uninterpreted, log 21. -/
opaque Config.stackWidth : StackKind → Width

/-- The byte order of a 16-bit stack access; its word has no endianness bit (R63, R148). DESIGN CHOICE:
uninterpreted, log 21. -/
opaque Config.stackOrder : StackKind → ByteOrder

/-- Bits 15:8 of a register written from an 8-bit stack access (R148). DESIGN CHOICE: uninterpreted,
log 21. -/
opaque Config.stackHighByte : StackKind → (old : Word) → (loaded : Byte) → Byte

/-- Whether an 8-bit stack access writes bits 15:8 of the register to memory, or bits 7:0 (R148).
DESIGN CHOICE: uninterpreted, log 21. -/
opaque Config.stackStoresHighByte : StackKind → Bool

end Sys2Proof
end

