-- ==== Sys2Proof/WellFormed.lean ====
section
/-! DEFINITION. The decoder's output type (30_encoding.md R72) and which of its values the opcode
layout can produce: "field combinations impossible under the opcode layout are unrepresentable" (R30,
R64). The 2-bit and 12-bit fields carry their bound in their type; the checks here are the ones a type
does not say. -/

namespace Sys2Proof

/-- OffsetConfig: base register and shift amount (R9, R72, R92). -/
structure OffsetConfig where
  baseRegister : BitVec 2
  shift : Nat
  deriving DecidableEq, Repr

/-- Condition: flag index and inverted (R9, R72, R101). -/
structure Condition where
  flagIndex : BitVec 2
  inverted : Bool
  deriving DecidableEq, Repr

/-- The source's Instruction: a closed tagged union of seven variants for eight families (R72, C5). -/
inductive Decoded
  | operation (aRegister destinationRegister : BitVec 2) (sourceMode : SourceMode)
      (settings : AluSettings) (is8bit unitOther : Bool)
  | load (destinationRegister : BitVec 2) (offset : OffsetConfig) (mode : LoadMode)
      (endianBit widthBit : Bool)
  | store (sourceRegister : BitVec 2) (offset : OffsetConfig) (mode : StoreMode)
      (endianBit widthBit : Bool)
  | jump (offset : OffsetConfig) (condition : Condition) (subroutineCall : Bool)
  | stackRead (register : BitVec 2) (offset : OffsetConfig) (spDelta : Nat)
  | stackWrite (register : BitVec 2) (offset : OffsetConfig) (spDelta : Nat)
  | moreSpecific (secondary : BitVec 12)
  deriving DecidableEq, Repr

/-- The eighteen stack-pointer deltas of R107. -/
def spDeltas : List Nat :=
  [0, 1, 2, 3, 4, 6, 8, 12, 16, 24, 32, 48, 64, 96, 128, 192, 256, 384]

/-- The families whose words decode to an error (R111, R112). -/
def invalidFamilies : List (BitVec 4) := [5, 8, 9, 10, 11, 12, 13, 14]

/-- An Operation's destination is its a register (family 0000) or slot 0 (family 0001): R80, R81. -/
def destinationOk (a dest : BitVec 2) : Bool := dest = a || dest = 0

/-- The shift amount of Load, Store and Jump is a 3-bit field (R72). -/
def shiftOk (o : OffsetConfig) : Bool := o.shift < 8

/-- The delta is one of the values the two fields can make (R106, R107). -/
def spDeltaOk (d : Nat) : Bool := spDeltas.contains d

/-- Whether a decoded value is one the opcode layout can produce. The shift of a stack variant is not
checked: it is the value of the open STACK_SHIFT (R105). -/
def Decoded.wellFormed : Decoded → Bool
  | .operation a d _ _ _ _ => destinationOk a d
  | .load _ o _ _ _ => shiftOk o
  | .store _ o _ _ _ => shiftOk o
  | .jump o _ _ => shiftOk o
  | .stackRead _ _ d => spDeltaOk d
  | .stackWrite _ _ d => spDeltaOk d
  | .moreSpecific _ => true

/-- Whether an answer of `decode` is a well-formed instruction or a well-formed InvalidOpcode (R164: "a
valid Instruction or a well-formed InvalidOpcode"). -/
def decodeAnswerOk : Except BlockError Decoded → Bool
  | .ok d => d.wellFormed
  | .error (.invalidOpcode f) => invalidFamilies.contains f
  | .error _ => false

end Sys2Proof
end

