-- ==== Sys2Proof/Decode.lean ====
section
/-! DEFINITION. The decoder (30_encoding.md R60 to R69; files 40 to 43) and, after it, an encoder
written from the same field table (R63). `decodeRow` reads a word as its opcode-table row; `decode` is
the source's contract: the tagged instruction or InvalidOpcode (R61). -/

namespace Sys2Proof

/-! ### Fields -/

/-- `word[lo + len - 1 : lo]` (R6). -/
def fieldAt (lo len : Nat) (w : Word) : BitVec len := w.extractLsb' lo len

/-- `word[n]` (R6). -/
def bitAt (n : Nat) (w : Word) : Bool := w.getLsbD n

/-- The opcode family, `word[15:12]` (R62). -/
def familyOf (w : Word) : BitVec 4 := fieldAt 12 4 w

/-- `settings_from(raw)` for the 5-bit raw value (R121). -/
def settingsFrom (raw : BitVec 5) : AluSettings where
  invertA := raw.getLsbD 4
  invertB := raw.getLsbD 3
  floodCarry := raw.getLsbD 2
  carryIn := raw.getLsbD 1
  orMode := raw.getLsbD 0

/-- `settings_from(raw)` for a settings byte: bits above bit 4 are ignored at construction (R121). -/
def settingsFromByte (raw : Byte) : AluSettings := settingsFrom (raw.setWidth 5)

/-- The raw bits of a settings value (R121). -/
def settingsBits (s : AluSettings) : BitVec 5 :=
  BitVec.ofBool s.invertA ++ BitVec.ofBool s.invertB ++ BitVec.ofBool s.floodCarry ++
    BitVec.ofBool s.carryIn ++ BitVec.ofBool s.orMode

/-- `word[9:8]` of an Operation (R67). -/
def sourceModeOf (c : BitVec 2) : SourceMode :=
  if c = 0 then .immediate else if c = 1 then .register else if c = 2 then .memoryLE else .memoryBE

/-- The code of a source mode (R67). -/
def sourceModeBits : SourceMode → BitVec 2
  | .immediate => 0
  | .register => 1
  | .memoryLE => 2
  | .memoryBE => 3

/-- `word[7:6]` of a Load (R67). -/
def loadModeOf (c : BitVec 2) : LoadMode :=
  if c = 0 then .immediate else if c = 1 then .directAddress
  else if c = 2 then .register else .addressRegisterIndirect

/-- The code of a Load's addressing mode (R67). -/
def loadModeBits : LoadMode → BitVec 2
  | .immediate => 0
  | .directAddress => 1
  | .register => 2
  | .addressRegisterIndirect => 3

/-- `word[7]` of a Store (R67); Store's code is not Load's (R95). -/
def storeModeOf (c : Bool) : StoreMode := if c then .addressRegisterIndirect else .directAddress

/-- The code of a Store's addressing mode (R67). -/
def storeModeBit : StoreMode → Bool
  | .directAddress => false
  | .addressRegisterIndirect => true

/-- The stack-pointer delta `word[1:0] << word[4:2]`, unsigned and not truncated (R106, D7). -/
def spDelta (count : BitVec 3) (base : BitVec 2) : Nat := base.toNat * 2 ^ count.toNat

/-! ### Decoding, family by family -/

/-- Format OP with the family's constructor (R80, R81, R82). -/
def decodeOperation
    (mk : BitVec 2 → SourceMode → AluSettings → Bool → Bool → Instr) (w : Word) : Instr :=
  mk (fieldAt 10 2 w) (sourceModeOf (fieldAt 8 2 w)) (settingsFrom (fieldAt 3 5 w))
    (bitAt 2 w) (bitAt 1 w)

/-- Format LD (R90). -/
def decodeLoad (w : Word) : Instr :=
  .load (fieldAt 10 2 w) (fieldAt 8 2 w) (loadModeOf (fieldAt 6 2 w)) (bitAt 5 w) (bitAt 4 w)
    (fieldAt 1 3 w)

/-- Format ST (R91). -/
def decodeStore (w : Word) : Instr :=
  .store (fieldAt 10 2 w) (fieldAt 8 2 w) (storeModeOf (bitAt 7 w)) (bitAt 5 w) (bitAt 4 w)
    (fieldAt 1 3 w)

/-- Format J (R100). -/
def decodeJump (w : Word) : Instr :=
  .jump (fieldAt 10 2 w) (fieldAt 5 3 w) (bitAt 4 w) (fieldAt 2 2 w) (bitAt 1 w)

/-- Format SK with the family's constructor (R103, R104). -/
def decodeStack (mk : BitVec 2 → BitVec 2 → BitVec 3 → BitVec 3 → BitVec 2 → Instr)
    (w : Word) : Instr :=
  mk (fieldAt 10 2 w) (fieldAt 8 2 w) (fieldAt 5 3 w) (fieldAt 2 3 w) (fieldAt 0 2 w)

/-- The opcode-table row of a word with its fields (R62): total over all 65536 words. -/
def decodeRow (w : Word) : Instr :=
  match (familyOf w).toNat with
  | 0 => decodeOperation .op w
  | 1 => decodeOperation .cmp w
  | 2 => decodeLoad w
  | 3 => decodeStore w
  | 4 => decodeJump w
  | 5 => .invalid5
  | 6 => decodeStack .sread w
  | 7 => decodeStack .swrite w
  | 8 => .invalid8
  | 9 => .invalid9
  | 10 => .invalidA
  | 11 => .invalidB
  | 12 => .invalidC
  | 13 => .invalidD
  | 14 => .invalidE
  | _ => .more (fieldAt 0 12 w)

/-- The family a row belongs to (R62). -/
def Instr.family : Instr → BitVec 4
  | .op _ _ _ _ _ => 0
  | .cmp _ _ _ _ _ => 1
  | .load _ _ _ _ _ _ => 2
  | .store _ _ _ _ _ _ => 3
  | .jump _ _ _ _ _ => 4
  | .invalid5 => 5
  | .sread _ _ _ _ _ => 6
  | .swrite _ _ _ _ _ => 7
  | .invalid8 => 8
  | .invalid9 => 9
  | .invalidA => 10
  | .invalidB => 11
  | .invalidC => 12
  | .invalidD => 13
  | .invalidE => 14
  | .more _ => 15

/-- The source's tagged value for a row, or the error the row stands for (R72, R80 to R111). -/
def Instr.decoded : Instr → Except BlockError Decoded
  | .op a m st w u => .ok (.operation a a m st w u)
  | .cmp a m st w u => .ok (.operation a 0 m st w u)
  | .load d b m e w sh => .ok (.load d ⟨b, sh.toNat⟩ m e w)
  | .store r b m e w sh => .ok (.store r ⟨b, sh.toNat⟩ m e w)
  | .jump b sh inv k call => .ok (.jump ⟨b, sh.toNat⟩ ⟨k, inv⟩ call)
  | .sread r b f c v => .ok (.stackRead r ⟨b, Config.stackShift .stackRead f⟩ (spDelta c v))
  | .swrite r b f c v => .ok (.stackWrite r ⟨b, Config.stackShift .stackWrite f⟩ (spDelta c v))
  | .more x => .ok (.moreSpecific x)
  | .invalid5 => .error (.invalidOpcode 5)
  | .invalid8 => .error (.invalidOpcode 8)
  | .invalid9 => .error (.invalidOpcode 9)
  | .invalidA => .error (.invalidOpcode 10)
  | .invalidB => .error (.invalidOpcode 11)
  | .invalidC => .error (.invalidOpcode 12)
  | .invalidD => .error (.invalidOpcode 13)
  | .invalidE => .error (.invalidOpcode 14)

/-- `decode(word)` (R61): total, pure, reads only the word. -/
def decode (w : Word) : Except BlockError Decoded := (decodeRow w).decoded

/-- Whether a row's tagged value is well-formed. -/
def Instr.wellFormed (i : Instr) : Bool := decodeAnswerOk i.decoded

/-! ### Encoding, from the same table (R63); don't-care bits are written as 0 (R74) -/

/-- Format OP. -/
def encodeOperation (family : BitVec 4) (a : BitVec 2) (m : SourceMode) (st : AluSettings)
    (w u : Bool) : Word :=
  family ++ a ++ sourceModeBits m ++ settingsBits st ++ BitVec.ofBool w ++ BitVec.ofBool u ++ 0#1

/-- Format SK. -/
def encodeStack (family : BitVec 4) (r b : BitVec 2) (f c : BitVec 3) (v : BitVec 2) : Word :=
  family ++ r ++ b ++ f ++ c ++ v

/-- Format INV. -/
def encodeInvalid (family : BitVec 4) : Word := family ++ 0#12

/-- The word of an instruction. -/
def encode : Instr → Word
  | .op a m st w u => encodeOperation 0 a m st w u
  | .cmp a m st w u => encodeOperation 1 a m st w u
  | .load d b m e w sh =>
    2#4 ++ d ++ b ++ loadModeBits m ++ BitVec.ofBool e ++ BitVec.ofBool w ++ sh ++ 0#1
  | .store r b m e w sh =>
    3#4 ++ r ++ b ++ BitVec.ofBool (storeModeBit m) ++ 0#1 ++ BitVec.ofBool e ++
      BitVec.ofBool w ++ sh ++ 0#1
  | .jump b sh inv k call =>
    4#4 ++ b ++ 0#2 ++ sh ++ BitVec.ofBool inv ++ k ++ BitVec.ofBool call ++ 0#1
  | .sread r b f c v => encodeStack 6 r b f c v
  | .swrite r b f c v => encodeStack 7 r b f c v
  | .more x => 15#4 ++ x
  | .invalid5 => encodeInvalid 5
  | .invalid8 => encodeInvalid 8
  | .invalid9 => encodeInvalid 9
  | .invalidA => encodeInvalid 10
  | .invalidB => encodeInvalid 11
  | .invalidC => encodeInvalid 12
  | .invalidD => encodeInvalid 13
  | .invalidE => encodeInvalid 14

/-- The bits of a word that a field of its family uses (R63, R66); the others are don't-care. -/
def usedBits (family : BitVec 4) : Word :=
  match family.toNat with
  | 0 => 0xFFFE
  | 1 => 0xFFFE
  | 2 => 0xFFFE
  | 3 => 0xFFBE
  | 4 => 0xFCFE
  | 6 => 0xFFFF
  | 7 => 0xFFFF
  | 15 => 0xFFFF
  | _ => 0xF000

/-! ### The table's numbering -/

/-- The word whose low `nbits` bits are those of `w` and whose bits above are 0. -/
def tableWord (nbits w : Nat) : Word := BitVec.ofNat 16 (w % 2 ^ nbits)

/-- The row the decoder reads from an instruction of `nbits` bits `w`. An instruction is one 16-bit word
(R60): more bits than that are no instruction. -/
def decodeTableWord (nbits w : Nat) : Option Instr :=
  if nbits ≤ 16 then some (decodeRow (tableWord nbits w)) else none

end Sys2Proof
end

