-- ==== Sys2Proof/Machine/State.lean ====
section
/-! DEFINITION. The state of one machine instance (10_state.md R10), the driver's side of it
(45_execute_contract.md R140, R152), and the reasons a step stops. Plain data only. -/

namespace Sys2Proof.Machine

open Sys2Proof

/-- The three stored flags of one width (R17, R18). -/
structure Flags where
  carry : Bool
  zero : Bool
  sign : Bool
  deriving DecidableEq, Repr

/-- Memory as (address, byte) pairs: addresses strictly rising, no byte equal to what an unlisted
address reads as (R40; log 5). -/
abbrev Memory := List Host.Cell

/-- What an operation of the block answers its caller: R23's outputs, R8's `Ok(value)`. -/
inductive Reply
  /-- No operation has been called yet. -/
  | nothing
  /-- `Ok` with no value (a write or a set). -/
  | done
  /-- A register's value or a 16-bit memory read (R12, R43, R46). -/
  | word (value : Word)
  /-- A byte read (R42). -/
  | byte (value : Byte)
  /-- A flag's value (R19). -/
  | flag (value : Bool)
  /-- The ALU's four outputs; an 8-bit result stands in bits 7:0 (R120). -/
  | alu (result : Word) (carry zero sign : Bool)
  /-- A decoded instruction (R61). -/
  | decoded (value : Decoded)
  deriving DecidableEq, Repr

/-- One machine instance and its driver. `x1` to `x3`, `f8`, `f16`, `mem` are the block's whole
persistent state (R10); `pc`, `sp` are the driver's (R25, R26); `inputs`, `pending`, `reply` are the
model's form of the ports between the two (R23, R141, R152; log 1, log 32). -/
structure State where
  /-- Register slot 1 (R11). -/
  x1 : Word
  /-- Register slot 2 (R11). -/
  x2 : Word
  /-- Register slot 3 (R11). -/
  x3 : Word
  /-- The 8-bit context's flags F[W8] (R17). -/
  f8 : Flags
  /-- The 16-bit context's flags F[W16] (R17). -/
  f16 : Flags
  /-- The 65536-byte memory (R40). -/
  mem : Memory
  /-- The driver's program counter (R25, D13). -/
  pc : Word
  /-- The driver's stack pointer (R26, D14). -/
  sp : Word
  /-- What the driver brings for the presented word (R141). -/
  inputs : Inputs
  /-- What the driver does next, first item first (R152). -/
  pending : List DriverAction
  /-- What the last block operation the driver called answered (R23). -/
  reply : Reply
  deriving DecidableEq, Repr

/-- Why a run ends at a fault. -/
inductive Fault
  /-- InvalidRegister{index} (R161): raised by a `reg_read` or `reg_write` the driver calls with an index
  of 4 or more. SAFE: the run stops, no state changes (R164, D16). -/
  | invalidRegister (index : Nat)
  /-- InvalidFlag{index} (R162): raised by a `flag_get` or `flag_set` the driver calls with an index of 4 or
  more. SAFE: the run stops, no state changes (R164, D16, D17). -/
  | invalidFlag (index : Nat)
  /-- InvalidOpcode{family} (R163): raised by `decode` of a word of family 0101 or 1000 to 1110, presented
  or handed to the decoder by the driver. SAFE: the run stops at that word (R150, D16). -/
  | invalidOpcode (family : BitVec 4)
  /-- The driver does nothing more: "a run ... ends when the driver stops" (R152, D24; log 31). Raised by
  `step` with nothing pending. SAFE: nothing is claimed past it. -/
  | driverStopped
  deriving DecidableEq, Repr

/-- Why the model refuses a word. -/
inductive Refusal
  /-- An instruction whose meaning is not written. Raised by `exec` only. SAFE: nothing is claimed. -/
  | notModelled (mnemonic : String)
  /-- An Operation or Comparison with the unit selector set: "not-yet-specified, never silently ignored"
  (R144, D23). Raised by OP and CMP. SAFE: no state changes, nothing is claimed past it. -/
  | unspecifiedUnit
  /-- A MoreSpecific word: "deferred to a future sub-dispatch not specified here" (R149, D23). Raised by
  MORE. SAFE: no state changes, nothing is claimed past it. -/
  | unspecifiedSecondary (secondary : BitVec 12)
  deriving DecidableEq, Repr

/-- The machine right after reset. The spec gives no reset value (R31, R180, D15); every value here is a
DESIGN CHOICE named in log 3 (registers), log 4 (flags), log 5 (memory), log 6 (the driver's fields). -/
def State.reset : State where
  x1 := 0
  x2 := 0
  x3 := 0
  f8 := ⟨false, false, false⟩
  f16 := ⟨false, false, false⟩
  mem := []
  pc := 0
  sp := 0
  inputs := ⟨0, 0, 0⟩
  pending := []
  reply := .nothing

end Sys2Proof.Machine
end

