-- ==== Sys2Proof/Machine/Ops.lean ====
section
/-! DEFINITION. The named operations over the register file (10_state.md R11 to R14) and memory
(20_memory.md R40 to R46), what an error does (60_exceptions.md R160 to R169), and the driver's advance
of its program counter. The block has no trap entry and no return from one (R168, R169): `raise` is the
one shared way an error ends a run. -/

namespace Sys2Proof.Machine

open Sys2Proof

/-! ### Bytes of a word -/

/-- `v[7:0]`. -/
def lowByte (v : Word) : Byte := v.extractLsb' 0 8

/-- `v[15:8]`. -/
def highByte (v : Word) : Byte := v.extractLsb' 8 8

/-- `{hi, lo}` (R6). -/
def wordOf (hi lo : Byte) : Word := hi ++ lo

/-- `zext_16(v)` (R7). -/
def zext16 (v : Byte) : Word := wordOf 0 v

/-! ### Memory as a list of cells -/

/-- What an address reads as that is not listed. DESIGN CHOICE: 0, log 5. -/
def unlistedByte : Byte := 0

/-- The byte at an address. -/
def Memory.read : Memory → Nat → Byte
  | [], _ => unlistedByte
  | (b, v) :: m, a => if b = a then v else Memory.read m a

/-- The cells but those of an address. -/
def Memory.without (m : Memory) (a : Nat) : Memory := m.filter (fun c => c.1 ≠ a)

/-- A cell put before the first cell of a higher address. -/
def Memory.place (a : Nat) (v : Byte) : Memory → Memory
  | [] => [(a, v)]
  | c :: m => if a < c.1 then (a, v) :: c :: m else c :: Memory.place a v m

/-- A byte written; writing what an unlisted address reads as removes the cell. -/
def Memory.write (m : Memory) (a : Nat) (v : Byte) : Memory :=
  if v = unlistedByte then m.without a else Memory.place a v (m.without a)

/-- Every cell's address is above `lo` and strictly rising, below 65536, and its byte is listed for a
reason. -/
def Memory.wfAbove : Option Nat → Memory → Bool
  | _, [] => true
  | lo, (a, v) :: m =>
    (match lo with
      | none => true
      | some l => decide (l < a)) && decide (a < 65536) && decide (v ≠ unlistedByte) &&
      Memory.wfAbove (some a) m

/-- The canonical form: addresses strictly rising and below 65536, no cell equal to what an unlisted
address reads as. -/
def Memory.wf (m : Memory) : Bool := m.wfAbove none

/-! ### Memory access (addresses wrap modulo 65536, no access errs: R41) -/

/-- `MemRead(addr, 1)` (R42). -/
def State.memRead8 (s : State) (a : Word) : Byte := s.mem.read a.toNat

/-- `MemWrite(addr, 1, v)` (R42). -/
def State.memWrite8 (s : State) (a : Word) (v : Byte) : State :=
  { s with mem := s.mem.write a.toNat v }

/-- `MemRead(addr, 2)` (R43) and `MemReadBE(addr, 2)` (R46). -/
def State.memRead16 (s : State) (o : ByteOrder) (a : Word) : Word :=
  match o with
  | .little => wordOf (s.memRead8 (a + 1)) (s.memRead8 a)
  | .big => wordOf (s.memRead8 a) (s.memRead8 (a + 1))

/-- `MemWrite(addr, 2, v)` (R44), low byte first, and `MemWriteBE(addr, 2, v)` (R46). -/
def State.memWrite16 (s : State) (o : ByteOrder) (a v : Word) : State :=
  match o with
  | .little => (s.memWrite8 a (lowByte v)).memWrite8 (a + 1) (highByte v)
  | .big => (s.memWrite8 a (highByte v)).memWrite8 (a + 1) (lowByte v)

/-! ### Register file -/

/-- `x[i]` with i in 0..3; slot 0 reads 0 (R11, R12). -/
def State.reg (s : State) (i : BitVec 2) : Word :=
  if i = 0 then 0 else if i = 1 then s.x1 else if i = 2 then s.x2 else s.x3

/-- `x[i] <- v` with i in 0..3; a write to slot 0 is discarded (R13). -/
def State.setReg (s : State) (i : BitVec 2) (v : Word) : State :=
  if i = 0 then s
  else if i = 1 then { s with x1 := v }
  else if i = 2 then { s with x2 := v }
  else { s with x3 := v }

/-- `reg_read(index)` (R12, R14, R161). -/
def State.regRead (s : State) (index : Nat) : Except BlockError Word :=
  if index < 4 then .ok (s.reg (BitVec.ofNat 2 index)) else .error (.invalidRegister index)

/-- `reg_write(index, value)` (R13, R14, R161). -/
def State.regWrite (s : State) (index : Nat) (v : Word) : Except BlockError State :=
  if index < 4 then .ok (s.setReg (BitVec.ofNat 2 index) v) else .error (.invalidRegister index)

/-! ### Errors -/

/-- The fault a block error ends a run with (R150, D16). -/
def faultOf : BlockError → Fault
  | .invalidRegister i => .invalidRegister i
  | .invalidFlag i => .invalidFlag i
  | .invalidOpcode f => .invalidOpcode f

/-- `raise <Error>(info)` reaching the driver: no state changes and the run ends there (R150, R160, R164,
D16). There is no trap entry (R168). -/
def raise (e : BlockError) : Host.Outcome State Fault Refusal := .fault (faultOf e)

/-! ### The driver's program counter -/

/-- The driver's program counter replaced (R25). -/
def State.setPc (s : State) (v : Word) : State := { s with pc := v }

/-- The driver's stack pointer replaced (R26). -/
def State.setSp (s : State) (v : Word) : State := { s with sp := v }

/-- The driver's advance past an instruction that does not redirect control (R4, R25; log 14). -/
def State.advance (s : State) (i : Instr) : State :=
  s.setPc (Config.nextPc i s.inputs s.pc)

end Sys2Proof.Machine
end

