-- ==== Sys2Proof/Machine/Flags.lean ====
section
/-! DEFINITION. The flags register (10_state.md R17 to R22) and the ALU, whose outputs are the only flag
computation of the block (44_alu_combine.md R120 to R127). -/

namespace Sys2Proof.Machine

open Sys2Proof

/-! ### The flags register -/

/-- One width's flag at an index; index 0 is the constant true (R18, R19). -/
def Flags.get (f : Flags) (k : BitVec 2) : Bool :=
  if k = 0 then true else if k = 1 then f.carry else if k = 2 then f.zero else f.sign

/-- One width's flags with a flag set; setting index 0 changes nothing (R20). -/
def Flags.set (f : Flags) (k : BitVec 2) (v : Bool) : Flags :=
  if k = 0 then f
  else if k = 1 then { f with carry := v }
  else if k = 2 then { f with zero := v }
  else { f with sign := v }

/-- The width slot F[w] (R17). -/
def State.slot (s : State) : Width → Flags
  | .w8 => s.f8
  | .w16 => s.f16

/-- F[w] replaced. -/
def State.setSlot (s : State) (w : Width) (f : Flags) : State :=
  match w with
  | .w8 => { s with f8 := f }
  | .w16 => { s with f16 := f }

/-- `flag_get(k, w)` for k in 0..3 (R19). -/
def State.flag (s : State) (w : Width) (k : BitVec 2) : Bool := (s.slot w).get k

/-- `flag_set(k, v, w)` for k in 0..3 (R20). -/
def State.setFlag (s : State) (w : Width) (k : BitVec 2) (v : Bool) : State :=
  s.setSlot w ((s.slot w).set k v)

/-- `flag_get(index, w)` (R19, R162, D17). -/
def State.flagGet (s : State) (index : Nat) (w : Width) : Except BlockError Bool :=
  if index < 4 then .ok (s.flag w (BitVec.ofNat 2 index)) else .error (.invalidFlag index)

/-- `flag_set(index, value, w)` (R20, R162). -/
def State.flagSet (s : State) (index : Nat) (v : Bool) (w : Width) : Except BlockError State :=
  if index < 4 then .ok (s.setFlag w (BitVec.ofNat 2 index) v) else .error (.invalidFlag index)

/-- `flags_write(w, c, z, s)`: all three flags of one slot as one step (R21). -/
def State.flagsWrite (s : State) (w : Width) (c z sg : Bool) : State := s.setSlot w ⟨c, z, sg⟩

/-! ### The ALU -/

/-- What `combine_N` returns (R120). -/
structure AluOut (n : Nat) where
  result : BitVec n
  carry : Bool
  zero : Bool
  sign : Bool
  deriving DecidableEq, Repr

/-- True iff at least two of the three are true (R7). -/
def majority (p q r : Bool) : Bool := (p && q) || (p && r) || (q && r)

/-- The sum bit of the one-bit cell (R123, R124). -/
def cellSum (st : AluSettings) (aBit bBit carry : Bool) : Bool :=
  if st.orMode then (aBit || bBit) ^^ carry else (aBit ^^ bBit) ^^ carry

/-- The next carry of the one-bit cell; flood-carry goes before or-mode (R123, R124). -/
def cellCarry (st : AluSettings) (aBit bBit carry : Bool) : Bool :=
  if st.floodCarry then true
  else if st.orMode then aBit && bBit && carry
  else majority aBit bBit carry

/-- An operand after step 1: inverted before anything else (R123). -/
def invertIf {n : Nat} (b : Bool) (v : BitVec n) : BitVec n := if b then v ^^^ BitVec.allOnes n else v

/-- The chain's value after some positions: the result bits so far and the carry into the next. -/
structure Chain (n : Nat) where
  result : BitVec n
  carry : Bool
  deriving DecidableEq, Repr

/-- One position of step 3: the sum bit with the incoming carry, then the next carry (R123). -/
def chainCell {n : Nat} (st : AluSettings) (a1 b1 : BitVec n) (i : Nat) (c : Chain n) : Chain n :=
  { result := c.result |||
      ((BitVec.ofBool (cellSum st (a1.getLsbD i) (b1.getLsbD i) c.carry)).setWidth n <<< i)
    carry := cellCarry st (a1.getLsbD i) (b1.getLsbD i) c.carry }

/-- Positions 0 to k-1, ascending, from the carry-in (R123 steps 2 and 3). -/
def chain {n : Nat} (st : AluSettings) (a1 b1 : BitVec n) : Nat → Chain n
  | 0 => ⟨0, st.carryIn⟩
  | k + 1 => chainCell st a1 b1 k (chain st a1 b1 k)

/-- `combine_N(a, b, s)`, once over N (R123, R126). -/
def combine {n : Nat} (a b : BitVec n) (st : AluSettings) : AluOut n :=
  let c := chain st (invertIf st.invertA a) (invertIf st.invertB b) n
  { result := c.result
    carry := c.carry
    zero := c.result = 0
    sign := c.result.getLsbD (n - 1) }

end Sys2Proof.Machine
end

