-- ==== Sys2Proof/Machine/BlockOps.lean ====
section
/-! DEFINITION. The block operations as the driver calls them (45_execute_contract.md R140, R152): each
answers `Ok` with a value and the next state, or an error and no state (R8, R164). -/

namespace Sys2Proof.Machine

open Sys2Proof

/-- The flag write the caller may ask `combine_N` for, into a slot the caller selects (R21, R125). -/
def State.flagsOut (s : State) (slot : Option Width) (c z sg : Bool) : State :=
  match slot with
  | none => s
  | some w => s.flagsWrite w c z sg

/-- `combine_N` called by the driver; at 8 bits its operands are the low bytes and its result is
answered zero-extended (R120, R125; the model's form of the call, log 32). -/
def State.callCombine (s : State) (w : Width) (a b : Word) (st : AluSettings)
    (slot : Option Width) : Reply × State :=
  match w with
  | .w8 =>
    let o := combine (lowByte a) (lowByte b) st
    (.alu (zext16 o.result) o.carry o.zero o.sign, s.flagsOut slot o.carry o.zero o.sign)
  | .w16 =>
    let o := combine a b st
    (.alu o.result o.carry o.zero o.sign, s.flagsOut slot o.carry o.zero o.sign)

/-- A block operation: its answer and the state after it, or its error (R8, R164). -/
def State.callOp (s : State) (op : BlockOp) : Except BlockError (Reply × State) :=
  match op with
  | .decode w => (decode w).map fun d => (.decoded d, s)
  | .combine w a b st slot => .ok (s.callCombine w a b st slot)
  | .regRead i => (s.regRead i).map fun v => (.word v, s)
  | .regWrite i v => (s.regWrite i v).map fun t => (.done, t)
  | .flagGet i w => (s.flagGet i w).map fun v => (.flag v, s)
  | .flagSet i v w => (s.flagSet i v w).map fun t => (.done, t)
  | .memRead8 a => .ok (.byte (s.memRead8 a), s)
  | .memRead16 o a => .ok (.word (s.memRead16 o a), s)
  | .memWrite8 a v => .ok (.done, s.memWrite8 a v)
  | .memWrite16 o a v => .ok (.done, s.memWrite16 o a v)

/-- Block operations the driver will call next, in this order, before everything else it will do. Each
is a step of its own, so one that errs ends the run there as any other does (R152, R169). -/
def State.callNext (s : State) (ops : List BlockOp) : State :=
  { s with pending := ops.map DriverAction.perform ++ s.pending }

/-- A block operation as the driver's whole step: the answer goes to the port, an error ends the run
(R150, R160, D16; log 28, log 32). DESIGN CHOICE, log 36: it leaves the driver's program counter and stack
pointer alone (R25, R26). -/
def State.perform (s : State) (op : BlockOp) : Host.Outcome State Fault Refusal :=
  match s.callOp op with
  | .ok r => .next { r.2 with reply := r.1 }
  | .error e => raise e

end Sys2Proof.Machine
end

