-- ==== Sys2Proof/Machine/Jump.lean ====
section
/-! DEFINITION. JUMP under the open parameter DRIVER (42_decode_jump_stack.md R100 to R102;
45_execute_contract.md R146, R147, D9). -/

namespace Sys2Proof.Machine

open Sys2Proof

/-- `taken` (R146, D12): the flag read in the slot JUMP_COND_WIDTH selects, inverted or not. -/
def State.jumpTaken (s : State) (k : BitVec 2) (inverted : Bool) : Bool :=
  s.flag Config.jumpCondWidth k ^^ inverted

/-- Where a taken Jump goes (R147; log 12). DESIGN CHOICE, log 12: a target has no alignment requirement
(R147 leaves any open); every 16-bit target is accepted, odd ones and 0xFFFF included. -/
def State.target (s : State) (base : BitVec 2) (shift : BitVec 3) (call : Bool) : Word :=
  Config.jumpTarget s.inputs s.pc (s.reg base) shift call

/-- A taken subroutine call: the driver goes to the target, moves its stack pointer, and saves the return
address by the block operations it calls next, in a way the source does not give (R102, R147; log 13). An
operation of these that errs ends the run at its own step (R150, R169, D16). -/
def State.enterSubroutine (s : State) (target : Word) : State :=
  ((s.callNext (Config.callSave s.inputs s.pc s.sp target)).setPc target).setSp
    (Config.callSp s.inputs s.pc s.sp target)

/-- JUMP: evaluates its condition; taken, control goes to the target (R146, R147; log 11 to 14).
DESIGN CHOICE, log 35: a Jump that is no taken subroutine call changes the program counter only, and a
return has no form of its own (R102, R147 and R151 leave both to the driver).
DESIGN CHOICE, log 12: a Jump never errs, whatever the alignment of its target (R147 leaves it open). -/
def execJump (base : BitVec 2) (shift : BitVec 3) (inverted : Bool) (k : BitVec 2) (call : Bool)
    (s : State) : Host.Outcome State Fault Refusal :=
  .next
    (if s.jumpTaken k inverted then
      if call then s.enterSubroutine (s.target base shift call)
      else s.setPc (s.target base shift call)
    else s.advance (.jump base shift inverted k call))

end Sys2Proof.Machine
end

