-- ==== Sys2Proof/Machine/Operands.lean ====
section
/-! DEFINITION. Every operand form: the b operand of an Operation by its source mode (R83, R141), the
loaded value of a Load and the stored bytes of a Store by their addressing modes (R92 to R95, R148), and
how a narrow value enters a register (R142, R148). The formulas the source leaves to the driver are the
constants of Config. -/

namespace Sys2Proof.Machine

open Sys2Proof

/-! ### Operation -/

/-- The b operand the driver resolves "from RegisterFile/Memory according to the decoded source mode"
(R4, R83, R141). DEDUCED, log 7; the 8-bit big-endian memory operand, log 8. -/
def State.bOperand (s : State) (m : SourceMode) (is8bit : Bool) : Word :=
  match m with
  | .immediate => s.inputs.immediate
  | .register => s.reg s.inputs.register
  | .memoryLE => s.memRead16 .little s.inputs.address
  | .memoryBE =>
    if is8bit && !Config.op8BigReadsWord then zext16 (s.memRead8 s.inputs.address)
    else s.memRead16 .big s.inputs.address

/-- `W8_WRITEBACK(old, r)`: bits 7:0 are r, bits 15:8 are open (R142, D11, U10; log 10). -/
def w8Writeback (old : Word) (r : Byte) : Word := wordOf (Config.w8HighByte old r) r

/-! ### Load and Store -/

/-- Whether a Load's or Store's width bit means 8-bit (R93, D8; log 17). -/
def lsIs8 (widthBit : Bool) : Bool := widthBit == Config.lsEightBitWhen

/-- The byte order a Load's or Store's endianness bit means (R93, D8; log 17). -/
def lsOrder (endianBit : Bool) : ByteOrder :=
  if endianBit == Config.lsBigEndianWhen then .big else .little

/-- The effective address of the direct-address mode (R94; log 15). -/
def State.directEA (s : State) (k : Access) (base : BitVec 2) (shift : BitVec 3) : Word :=
  Config.directAddress k s.inputs.address (s.reg base) shift

/-- The effective address of the address-register-indirect mode: "taken from a register's contents rather
than supplied directly" (R94; log 15). -/
def State.indirectEA (s : State) (k : Access) (base : BitVec 2) (shift : BitVec 3) : Word :=
  Config.indirectAddress k (s.reg s.inputs.register) (s.reg base) shift

/-- What a 16-bit Load loads (R94; log 16). -/
def State.loadWord (s : State) (m : LoadMode) (base : BitVec 2) (endianBit : Bool)
    (shift : BitVec 3) : Word :=
  match m with
  | .immediate => Config.loadDatum16 .immediate endianBit s.inputs.immediate (s.reg base) shift
  | .directAddress => s.memRead16 (lsOrder endianBit) (s.directEA .load base shift)
  | .register =>
    Config.loadDatum16 .register endianBit (s.reg s.inputs.register) (s.reg base) shift
  | .addressRegisterIndirect => s.memRead16 (lsOrder endianBit) (s.indirectEA .load base shift)

/-- What an 8-bit Load loads; an 8-bit access has no byte order (R47, R94; log 16). -/
def State.loadByte (s : State) (m : LoadMode) (base : BitVec 2) (endianBit : Bool)
    (shift : BitVec 3) : Byte :=
  match m with
  | .immediate => Config.loadDatum8 .immediate endianBit s.inputs.immediate (s.reg base) shift
  | .directAddress => s.memRead8 (s.directEA .load base shift)
  | .register =>
    Config.loadDatum8 .register endianBit (s.reg s.inputs.register) (s.reg base) shift
  | .addressRegisterIndirect => s.memRead8 (s.indirectEA .load base shift)

/-- The value a Load writes into its destination; the upper byte of an 8-bit Load is open (R148, N30;
log 18). -/
def State.loadValue (s : State) (dest : BitVec 2) (m : LoadMode) (base : BitVec 2)
    (endianBit widthBit : Bool) (shift : BitVec 3) : Word :=
  if lsIs8 widthBit then
    let v := s.loadByte m base endianBit shift
    wordOf (Config.loadHighByte (s.reg dest) v) v
  else s.loadWord m base endianBit shift

/-- The address a Store writes to (R94; log 15). -/
def State.storeEA (s : State) (m : StoreMode) (base : BitVec 2) (shift : BitVec 3) : Word :=
  match m with
  | .directAddress => s.directEA .store base shift
  | .addressRegisterIndirect => s.indirectEA .store base shift

/-- The byte of a register that an 8-bit access writes: which one is open (R148). -/
def byteToStore (high : Bool) (v : Word) : Byte := if high then highByte v else lowByte v

/-- A Store's write of a register's value (R91, R148; log 19). -/
def State.storeValue (s : State) (a v : Word) (endianBit widthBit : Bool) : State :=
  if lsIs8 widthBit then s.memWrite8 a (byteToStore Config.storesHighByte v)
  else s.memWrite16 (lsOrder endianBit) a v

/-! ### Stack access -/

/-- The value a stack access writes into its register (R148; log 21). -/
def State.stackValue (s : State) (k : StackKind) (r : BitVec 2) (a : Word) : Word :=
  match Config.stackWidth k with
  | .w8 => wordOf (Config.stackHighByte k (s.reg r) (s.memRead8 a)) (s.memRead8 a)
  | .w16 => s.memRead16 (Config.stackOrder k) a

/-- A stack access's write of its register to memory (R148; log 21). -/
def State.stackStore (s : State) (k : StackKind) (r : BitVec 2) (a : Word) : State :=
  match Config.stackWidth k with
  | .w8 => s.memWrite8 a (byteToStore (Config.stackStoresHighByte k) (s.reg r))
  | .w16 => s.memWrite16 (Config.stackOrder k) a (s.reg r)

end Sys2Proof.Machine
end

