-- ==== Sys2Proof/Machine/LoadStore.lean ====
section
/-! DEFINITION. LOAD and STORE under the open parameter DRIVER (41_decode_load_store.md R90 to R95;
10_state.md R16; 45_execute_contract.md R148, D9). -/

namespace Sys2Proof.Machine

open Sys2Proof

/-- LOAD: the destination register is written with the loaded value (R16, R90, R94; log 15 to 18, 20). -/
def execLoad (dest base : BitVec 2) (m : LoadMode) (endianBit widthBit : Bool) (shift : BitVec 3)
    (s : State) : Host.Outcome State Fault Refusal :=
  .next ((s.setReg dest (s.loadValue dest m base endianBit widthBit shift)).advance
    (.load dest base m endianBit widthBit shift))

/-- STORE: the source register's value is written to memory at the effective address (R16, R91, R94; log
15, 17, 19, 20). -/
def execStore (source base : BitVec 2) (m : StoreMode) (endianBit widthBit : Bool)
    (shift : BitVec 3) (s : State) : Host.Outcome State Fault Refusal :=
  .next ((s.storeValue (s.storeEA m base shift) (s.reg source) endianBit widthBit).advance
    (.store source base m endianBit widthBit shift))

end Sys2Proof.Machine
end

