-- ==== Sys2Proof/Machine/MoreInvalid.lean ====
section
/-! DEFINITION. MORE, refused for every secondary opcode (45_execute_contract.md R149), and the invalid
families, whose words are decode errors that end the run (R111, R150). -/

namespace Sys2Proof.Machine

open Sys2Proof

/-- MORE: "A model refuses every MoreSpecific word at execution, with no exception" (R149, D23). -/
def execMore (x : BitVec 12) (_ : State) : Host.Outcome State Fault Refusal :=
  .refused (.unspecifiedSecondary x)

/-- Family 0101 (R111, R150). -/
def execInvalid5 (_ : State) : Host.Outcome State Fault Refusal := raise (.invalidOpcode 5)

/-- Family 1000 (R111, R150). -/
def execInvalid8 (_ : State) : Host.Outcome State Fault Refusal := raise (.invalidOpcode 8)

/-- Family 1001 (R111, R150). -/
def execInvalid9 (_ : State) : Host.Outcome State Fault Refusal := raise (.invalidOpcode 9)

/-- Family 1010 (R111, R150). -/
def execInvalidA (_ : State) : Host.Outcome State Fault Refusal := raise (.invalidOpcode 10)

/-- Family 1011 (R111, R150). -/
def execInvalidB (_ : State) : Host.Outcome State Fault Refusal := raise (.invalidOpcode 11)

/-- Family 1100 (R111, R150). -/
def execInvalidC (_ : State) : Host.Outcome State Fault Refusal := raise (.invalidOpcode 12)

/-- Family 1101 (R111, R150). -/
def execInvalidD (_ : State) : Host.Outcome State Fault Refusal := raise (.invalidOpcode 13)

/-- Family 1110 (R111, R150). -/
def execInvalidE (_ : State) : Host.Outcome State Fault Refusal := raise (.invalidOpcode 14)

end Sys2Proof.Machine
end

