-- ==== Sys2Proof/Machine/Operation.lean ====
section
/-! DEFINITION. OP and CMP: the reference execution of an Operation (45_execute_contract.md R142 to
R145). -/

namespace Sys2Proof.Machine

open Sys2Proof

/-- `execute_operation(op, b_operand)` for an Operation on the ALU: read a, compute, write the three flags
of the operation's own width slot, write the destination (R142, R185; D10, D11; log 9, log 10). -/
def State.executeOperation (s : State) (a dest : BitVec 2) (st : AluSettings) (is8bit : Bool)
    (b : Word) : State :=
  if is8bit then
    let o := combine (lowByte (s.reg a)) (lowByte b) st
    (s.flagsWrite .w8 o.carry o.zero o.sign).setReg dest (w8Writeback (s.reg dest) o.result)
  else
    let o := combine (s.reg a) b st
    (s.flagsWrite .w16 o.carry o.zero o.sign).setReg dest o.result

/-- An Operation of either family: with the unit selector set it is refused and changes nothing (R144,
D23). -/
def State.runOperation (s : State) (i : Instr) (a dest : BitVec 2) (m : SourceMode)
    (st : AluSettings) (is8bit unitOther : Bool) : Host.Outcome State Fault Refusal :=
  if unitOther then .refused .unspecifiedUnit
  else .next ((s.executeOperation a dest st is8bit (s.bOperand m is8bit)).advance i)

/-- OP (R80, R142): the destination is the a register. -/
def execOp (a : BitVec 2) (m : SourceMode) (st : AluSettings) (is8bit unitOther : Bool) (s : State) :
    Host.Outcome State Fault Refusal :=
  s.runOperation (.op a m st is8bit unitOther) a a m st is8bit unitOther

/-- CMP (R81, R143): the destination is slot 0, so only flags change. -/
def execCmp (a : BitVec 2) (m : SourceMode) (st : AluSettings) (is8bit unitOther : Bool) (s : State) :
    Host.Outcome State Fault Refusal :=
  s.runOperation (.cmp a m st is8bit unitOther) a 0 m st is8bit unitOther

end Sys2Proof.Machine
end

