-- ==== Sys2Proof/Machine/Stack.lean ====
section
/-! DEFINITION. SREAD and SWRITE under the open parameter DRIVER (42_decode_jump_stack.md R103 to R107;
10_state.md R16, R26; 45_execute_contract.md R148, D9). Which of the two moves memory into its register
and which its register into memory is not in the source (N12): both are modelled, by an uninterpreted
choice for each. -/

namespace Sys2Proof.Machine

open Sys2Proof

/-- The address a stack access uses (R105, R106, R148; log 21, log 22). -/
def State.stackEA (s : State) (k : StackKind) (base : BitVec 2) (f c : BitVec 3) (v : BitVec 2) :
    Word :=
  Config.stackAddress k s.inputs s.sp (s.reg base) (Config.stackShift k f) (spDelta c v)

/-- The stack pointer after a stack access, formed from the values before it (R26, R106; log 21). -/
def State.stackSp (s : State) (k : StackKind) (base : BitVec 2) (f c : BitVec 3) (v : BitVec 2) :
    Word :=
  Config.stackNextSp k s.inputs s.sp (s.reg base) (Config.stackShift k f) (spDelta c v)

/-- A stack access: one move between the register and memory, and the stack pointer's update (R148).
DESIGN CHOICE, log 21: the next stack pointer is formed from the base register's value before the access, also
where the register written is that base register (R106 and N5 leave the order open). -/
def State.stackAccess (s : State) (k : StackKind) (r base : BitVec 2) (f c : BitVec 3)
    (v : BitVec 2) : State :=
  (if Config.stackWritesRegister k then
      s.setReg r (s.stackValue k r (s.stackEA k base f c v))
    else s.stackStore k r (s.stackEA k base f c v)).setSp (s.stackSp k base f c v)

/-- SREAD (R103). -/
def execSread (r base : BitVec 2) (f c : BitVec 3) (v : BitVec 2) (s : State) :
    Host.Outcome State Fault Refusal :=
  .next ((s.stackAccess .stackRead r base f c v).advance (.sread r base f c v))

/-- SWRITE (R104). -/
def execSwrite (r base : BitVec 2) (f c : BitVec 3) (v : BitVec 2) (s : State) :
    Host.Outcome State Fault Refusal :=
  .next ((s.stackAccess .stackWrite r base f c v).advance (.swrite r base f c v))

end Sys2Proof.Machine
end

