-- ==== Sys2Proof/Machine/Dispatch.lean ====
section
/-! DEFINITION. One arm per instruction. -/

namespace Sys2Proof.Machine

open Sys2Proof

def exec (i : Instr) (s : State) : Host.Outcome State Fault Refusal :=
  match i with
  | .op a m st w u => Sys2Proof.Machine.execOp a m st w u s
  | .cmp a m st w u => Sys2Proof.Machine.execCmp a m st w u s
  | .load d b m e w sh => Sys2Proof.Machine.execLoad d b m e w sh s
  | .store r b m e w sh => Sys2Proof.Machine.execStore r b m e w sh s
  | .jump b sh inv k call => Sys2Proof.Machine.execJump b sh inv k call s
  | .sread r b f c v => Sys2Proof.Machine.execSread r b f c v s
  | .swrite r b f c v => Sys2Proof.Machine.execSwrite r b f c v s
  | .more x => Sys2Proof.Machine.execMore x s
  | .invalid5 => Sys2Proof.Machine.execInvalid5 s
  | .invalid8 => Sys2Proof.Machine.execInvalid8 s
  | .invalid9 => Sys2Proof.Machine.execInvalid9 s
  | .invalidA => Sys2Proof.Machine.execInvalidA s
  | .invalidB => Sys2Proof.Machine.execInvalidB s
  | .invalidC => Sys2Proof.Machine.execInvalidC s
  | .invalidD => Sys2Proof.Machine.execInvalidD s
  | .invalidE => Sys2Proof.Machine.execInvalidE s

end Sys2Proof.Machine
end

