-- ==== Sys2Proof/Machine/Fetch.lean ====
section
/-! DEFINITION. How the block comes to the next word: the driver presents it (45_execute_contract.md R140,
R141; 70_reset_and_hazards.md R181; log 1, log 2, log 33). -/

namespace Sys2Proof.Machine

open Sys2Proof

/-- The state in which a presented word executes: the driver's action is taken off, what it brings for the
word stands on the input port (R141). -/
def State.accept (s : State) (rest : List DriverAction) (inp : Inputs) : State :=
  { s with pending := rest, inputs := inp }

/-- The word the driver presents: handed over, or fetched from memory at its program counter (R47, R55,
D13). DESIGN CHOICE, log 33: the source says nothing of instruction-fetch alignment (R48); a fetch works at
every program counter, odd ones included, wraps at 0xFFFF as a 16-bit read does, and never errs. -/
def State.presentedWord (s : State) : WordSource → Word
  | .given w => w
  | .atPc o => s.memRead16 o s.pc

/-- The instruction the decoder reads from the presented word. -/
def State.presentedInstr (s : State) (src : WordSource) : Instr := decodeRow (s.presentedWord src)

/-- The state with one more word presented, before everything else the driver will do. -/
def State.presentNext (s : State) (w : Word) : State :=
  { s with pending := .present (.given w) s.inputs :: s.pending }

end Sys2Proof.Machine
end

