-- ==== Sys2Proof/Machine/Step.lean ====
section
/-! DEFINITION. One step: the driver's next action. A presented word is decoded and executed; a block
operation is performed; with nothing pending the driver has stopped (45_execute_contract.md R152). -/

namespace Sys2Proof.Machine

open Sys2Proof

def step (s : State) : Host.Outcome State Fault Refusal :=
  match s.pending with
  | [] => .fault .driverStopped
  | .present src inp :: rest =>
    exec ((s.accept rest inp).presentedInstr src) (s.accept rest inp)
  | .perform op :: rest => State.perform { s with pending := rest } op

/-- The driver presents this word next, with the inputs that stand on the port (log 2). -/
def State.withFetchWord (s : State) (nbits w : Nat) : State := s.presentNext (tableWord nbits w)

end Sys2Proof.Machine
end

