-- ==== Sys2Proof/Safety.lean ====
section
/-! DEFINITION. What claims speak of: the invariant, what two states agree on, and when a run is safe. -/

namespace Sys2Proof.Machine

open Sys2Proof

/-- The invariant of every reachable state that a type does not already say: memory keeps its canonical
form, so every listed address is below 65536 (R33, R40). -/
def State.Inv (s : State) : Prop := s.mem.wf = true

/-- The four register slots read alike. -/
def SameRegs (s t : State) : Prop := ∀ i, t.reg i = s.reg i

/-- The four register slots read alike but for one. -/
def SameRegsBut (r : BitVec 2) (s t : State) : Prop := ∀ i, i ≠ r → t.reg i = s.reg i

/-- The six stored flags are alike. -/
def SameFlags (s t : State) : Prop := t.f8 = s.f8 ∧ t.f16 = s.f16

/-- Every byte of the address space reads alike. -/
def SameMemory (s t : State) : Prop := ∀ a, t.memRead8 a = s.memRead8 a

/-- Every byte of the address space reads alike but those two. -/
def SameMemoryBut (x y : Word) (s t : State) : Prop :=
  ∀ a, a ≠ x → a ≠ y → t.memRead8 a = s.memRead8 a

/-- What the driver brought, what it does next and the output port are alike. -/
def SamePorts (s t : State) : Prop :=
  t.inputs = s.inputs ∧ t.pending = s.pending ∧ t.reply = s.reply

/-- Whether an instruction has an execution rule on every state: none of the refused or invalid words
(R144, R149, R150). -/
def runs : Instr → Bool
  | .op _ _ _ _ u => !u
  | .cmp _ _ _ _ u => !u
  | .load _ _ _ _ _ _ => true
  | .store _ _ _ _ _ _ => true
  | .jump _ _ _ _ _ => true
  | .sread _ _ _ _ _ => true
  | .swrite _ _ _ _ _ => true
  | .more _ => false
  | .invalid5 => false
  | .invalid8 => false
  | .invalid9 => false
  | .invalidA => false
  | .invalidB => false
  | .invalidC => false
  | .invalidD => false
  | .invalidE => false

/-- Whether a block operation cannot err (R165). -/
def opOk : BlockOp → Bool
  | .decode w => !invalidFamilies.contains (familyOf w)
  | .combine _ _ _ _ _ => true
  | .regRead i => i < 4
  | .regWrite i _ => i < 4
  | .flagGet i _ => i < 4
  | .flagSet i _ _ => i < 4
  | .memRead8 _ => true
  | .memRead16 _ _ => true
  | .memWrite8 _ _ => true
  | .memWrite16 _ _ _ => true

/-- Whether the driver's next action has an execution rule in this state: nothing pending, a word that runs
wherever it comes from, or an operation that cannot err (R144, R149, R150, R165). -/
def State.nextActionOk (s : State) : Bool :=
  match s.pending with
  | [] => true
  | .present src _ :: _ => runs (s.presentedInstr src)
  | .perform op :: _ => opOk op

/-- Whether a word is a subroutine call. -/
def isCall : Instr → Bool
  | .op _ _ _ _ _ => false
  | .cmp _ _ _ _ _ => false
  | .load _ _ _ _ _ _ => false
  | .store _ _ _ _ _ _ => false
  | .jump _ _ _ _ call => call
  | .sread _ _ _ _ _ => false
  | .swrite _ _ _ _ _ => false
  | .more _ => false
  | .invalid5 => false
  | .invalid8 => false
  | .invalid9 => false
  | .invalidA => false
  | .invalidB => false
  | .invalidC => false
  | .invalidD => false
  | .invalidE => false

/-- Where a handed-over word is a subroutine call, none of the operations that save its return address, an
open choice of the driver (log 13), can err. -/
def savesOk : DriverAction → Prop
  | .present (.given w) inp =>
    isCall (decodeRow w) = true →
      ∀ pc sp target, ∀ op ∈ Config.callSave inp pc sp target, opOk op = true
  | .present (.atPc _) _ => True
  | .perform _ => True

/-- An action of the driver that meets no error and no refusal whatever the state: a word handed over
that runs, or an operation that cannot err. A word fetched from memory depends on the state. -/
def actionOk : DriverAction → Bool
  | .present (.given w) _ => runs (decodeRow w)
  | .present (.atPc _) _ => false
  | .perform op => opOk op

/-- A step that neither meets an error nor a refusal: it goes on, or the driver has stopped (R152). -/
def SafeOutcome : Host.Outcome State Fault Refusal → Prop
  | .next _ => True
  | .fault .driverStopped => True
  | _ => False

/-- The first k steps meet no error and no refusal. -/
def SafeFor : Nat → State → Prop
  | 0, _ => True
  | k + 1, s => SafeOutcome (step s) ∧ ∀ t, step s = .next t → SafeFor k t

end Sys2Proof.Machine
end

