-- ==== Sys2Proof/Certificates/Slice0/Obligations.lean ====
section
/-! DEFINITION. The statements for the provers. Each docstring names the rule of the spec it formalises;
one that rests on a choice of the model or a decision of the spec says so. -/

open Sys2Proof Sys2Proof.Machine

/-! ### Decoding -/

/-- R111, R112: `decode` answers an error exactly for the words of the eight invalid families, and the error
is InvalidOpcode with the 4-bit family. -/
def Obligations.DecodeErrsExactlyOnInvalidFamilies : Prop :=
  ∀ w : Word,
    ((∃ e, decode w = .error e) ↔ w.toNat / 4096 ∈ [5, 8, 9, 10, 11, 12, 13, 14]) ∧
    ∀ e, decode w = .error e → e = .invalidOpcode (BitVec.ofNat 4 (w.toNat / 4096))

/-- R80: every field of a word of family 0000; with the a register 00 it decodes as the Comparison with the
same low twelve bits does. -/
def Obligations.DecodeOperationFields : Prop :=
  ∀ w : Word, w.toNat / 4096 = 0 → ∃ a m w8 u,
    decode w = .ok (.operation a a m
      ⟨w.getLsbD 7, w.getLsbD 6, w.getLsbD 5, w.getLsbD 4, w.getLsbD 3⟩ w8 u) ∧
    a.toNat = w.toNat / 1024 % 4 ∧
    [SourceMode.immediate, .register, .memoryLE, .memoryBE][w.toNat / 256 % 4]? = some m ∧
    w8 = w.getLsbD 2 ∧ u = w.getLsbD 1 ∧ (a = 0 → decode w = decode (w ||| 0x1000))

/-- R81: every field of a word of family 0001, the destination forced to 0; executing it changes no
register and no memory, only flags. -/
def Obligations.DecodeComparisonFields : Prop :=
  ∀ w : Word, w.toNat / 4096 = 1 →
    (∃ a m w8 u,
      decode w = .ok (.operation a 0 m
        ⟨w.getLsbD 7, w.getLsbD 6, w.getLsbD 5, w.getLsbD 4, w.getLsbD 3⟩ w8 u) ∧
      a.toNat = w.toNat / 1024 % 4 ∧
      [SourceMode.immediate, .register, .memoryLE, .memoryBE][w.toNat / 256 % 4]? = some m ∧
      w8 = w.getLsbD 2 ∧ u = w.getLsbD 1) ∧
    ∀ s t, exec (decodeRow w) s = .next t → SameRegs s t ∧ SameMemory s t

/-- R90: every field of a word of family 0010. -/
def Obligations.DecodeLoadFields : Prop :=
  ∀ w : Word, w.toNat / 4096 = 2 → ∃ d b m,
    decode w = .ok (.load d ⟨b, w.toNat / 2 % 8⟩ m (w.getLsbD 5) (w.getLsbD 4)) ∧
    d.toNat = w.toNat / 1024 % 4 ∧ b.toNat = w.toNat / 256 % 4 ∧
    [LoadMode.immediate, .directAddress, .register, .addressRegisterIndirect][w.toNat / 64 % 4]? =
      some m

/-- R91: every field of a word of family 0011. -/
def Obligations.DecodeStoreFields : Prop :=
  ∀ w : Word, w.toNat / 4096 = 3 → ∃ r b,
    decode w = .ok (.store r ⟨b, w.toNat / 2 % 8⟩
      (if w.getLsbD 7 then .addressRegisterIndirect else .directAddress)
      (w.getLsbD 5) (w.getLsbD 4)) ∧
    r.toNat = w.toNat / 1024 % 4 ∧ b.toNat = w.toNat / 256 % 4

/-- R100: every field of a word of family 0100. -/
def Obligations.DecodeJumpFields : Prop :=
  ∀ w : Word, w.toNat / 4096 = 4 → ∃ b k,
    decode w = .ok (.jump ⟨b, w.toNat / 32 % 8⟩ ⟨k, w.getLsbD 4⟩ (w.getLsbD 1)) ∧
    b.toNat = w.toNat / 1024 % 4 ∧ k.toNat = w.toNat / 4 % 4

/-- Files 42 (StackRead, StackWrite): every field of a word of families 0110 and 0111. The shift is the
value of the open STACK_SHIFT (D6, log 22); the untruncated left shift of the delta is the spec's decision
D7 (log 23). -/
def Obligations.DecodeStackFields : Prop :=
  ∀ w : Word,
    (w.toNat / 4096 = 6 → ∃ r b f,
      decode w = .ok (.stackRead r ⟨b, Config.stackShift .stackRead f⟩
        ((w.toNat % 4) <<< (w.toNat / 4 % 8))) ∧
      r.toNat = w.toNat / 1024 % 4 ∧ b.toNat = w.toNat / 256 % 4 ∧ f.toNat = w.toNat / 32 % 8) ∧
    (w.toNat / 4096 = 7 → ∃ r b f,
      decode w = .ok (.stackWrite r ⟨b, Config.stackShift .stackWrite f⟩
        ((w.toNat % 4) <<< (w.toNat / 4 % 8))) ∧
      r.toNat = w.toNat / 1024 % 4 ∧ b.toNat = w.toNat / 256 % 4 ∧ f.toNat = w.toNat / 32 % 8)

/-- R110: every word of family 1111 decodes, to its low twelve bits unchanged. -/
def Obligations.DecodeMoreSpecificKeepsTwelveBits : Prop :=
  ∀ w : Word, w.toNat / 4096 = 15 → ∃ x : BitVec 12,
    decode w = .ok (.moreSpecific x) ∧ x.toNat = w.toNat % 4096

/-- 30_encoding.md, don't-care bits (decision D4, log 24): two words of a family that agree on the bits
its fields use decode alike. -/
def Obligations.DecodeIgnoresUnnamedBits : Prop :=
  ∀ (w v m : Word),
    (w.toNat / 4096, m) ∈ [(0, (0xFFFE : Word)), (1, 0xFFFE), (2, 0xFFFE), (3, 0xFFBE), (4, 0xFCFE),
      (5, 0xF000), (8, 0xF000), (9, 0xF000), (10, 0xF000), (11, 0xF000), (12, 0xF000), (13, 0xF000),
      (14, 0xF000)] →
    w &&& m = v &&& m → decode w = decode v

/-- 30_encoding.md R63: decoding an encoded well-formed instruction gives it back, every operand at every
value its field admits. -/
def Obligations.DecodeOfEncodeIsIdentity : Prop :=
  ∀ i : Instr, i.wellFormed = true →
    decodeRow (encode i) = i ∧ decodeTableWord 16 (encode i).toNat = some i

/-- 30_encoding.md R63, R66: encoding a decoded word gives it back with its don't-care bits cleared. That the
encoder writes those bits as 0 is the spec's notation (R74) under its decision D4, the model's choice in log
24. -/
def Obligations.EncodeOfDecodeClearsUnnamedBits : Prop :=
  ∀ (w m : Word),
    (w.toNat / 4096, m) ∈ [(0, (0xFFFE : Word)), (1, 0xFFFE), (2, 0xFFFE), (3, 0xFFBE), (4, 0xFCFE),
      (5, 0xF000), (6, 0xFFFF), (7, 0xFFFF), (8, 0xF000), (9, 0xF000), (10, 0xF000), (11, 0xF000),
      (12, 0xF000), (13, 0xF000), (14, 0xF000), (15, 0xFFFF)] →
    encode (decodeRow w) = w &&& m

/-- 95_test_vectors.md section 2: one word of each of the sixteen families, written out bit by bit. -/
def Obligations.WrittenOutWordsDecode : Prop :=
  decodeRow 0b0000010001010000 = .op 1 .immediate ⟨false, true, false, true, false⟩ false false ∧
  decodeRow 0b0001100101010000 = .cmp 2 .register ⟨false, true, false, true, false⟩ false false ∧
  decodeRow 0b0010011010110110 = .load 1 2 .register true true 3 ∧
  decodeRow 0b0011101010110100 = .store 2 2 .addressRegisterIndirect true true 2 ∧
  decodeRow 0b0100110001101110 = .jump 3 3 false 3 true ∧
  decodeRow 0b0110011110100111 = .sread 1 3 5 1 3 ∧
  decodeRow 0b0111101101011110 = .swrite 2 3 2 7 2 ∧
  decodeRow 0b1111101010111100 = .more 0xABC ∧
  decodeRow 0b0101000000000000 = .invalid5 ∧
  decodeRow 0b1000000000000000 = .invalid8 ∧
  decodeRow 0b1001000100100011 = .invalid9 ∧
  decodeRow 0b1010010110100101 = .invalidA ∧
  decodeRow 0b1011111111111111 = .invalidB ∧
  decodeRow 0b1100000000000001 = .invalidC ∧
  decodeRow 0b1101000000001101 = .invalidD ∧
  decodeRow 0b1110111111111111 = .invalidE

/-- R121: which bit of the raw value is which setting, for the 5-bit value and for a settings byte, whose
bits above bit 4 are ignored; every combination of the five is legal. -/
def Obligations.SettingsAreTheLowFiveBits : Prop :=
  (∀ raw : BitVec 5, settingsFrom raw =
    ⟨raw.getLsbD 4, raw.getLsbD 3, raw.getLsbD 2, raw.getLsbD 1, raw.getLsbD 0⟩) ∧
  (∀ raw : Byte, settingsFromByte raw =
    ⟨raw.getLsbD 4, raw.getLsbD 3, raw.getLsbD 2, raw.getLsbD 1, raw.getLsbD 0⟩) ∧
  (∀ raw raw' : Byte, raw &&& 0x1F = raw' &&& 0x1F → settingsFromByte raw = settingsFromByte raw') ∧
  ∀ st : AluSettings, ∃ raw : BitVec 5, settingsFrom raw = st

/-- 40_decode_operation.md, family 0000 against family 0001 (derived by the spec): the same low twelve bits
decode alike but for the destination, and to equal values exactly when the a register is slot 0. -/
def Obligations.ComparisonDiffersInDestinationOnly : Prop :=
  ∀ w : Word, w.toNat / 4096 = 0 → ∃ a m st w8 u,
    decode w = .ok (.operation a a m st w8 u) ∧
    decode (w ||| 0x1000) = .ok (.operation a 0 m st w8 u) ∧
    (decode w = decode (w ||| 0x1000) ↔ a = 0)

/-- 60_exceptions.md: every word classifies as a valid instruction or a well-formed InvalidOpcode. -/
def Obligations.EveryWordClassifies : Prop := ∀ w : Word, decodeAnswerOk (decode w) = true

/-- 42_decode_jump_stack.md (decision D7, log 23): the stack-pointer delta is the base shifted left, and its
values are exactly the eighteen of the table. -/
def Obligations.StackDeltaValues : Prop :=
  (∀ c v, spDelta c v = v.toNat <<< c.toNat ∧ spDelta c v ≤ 384 ∧ spDelta c v ∈ spDeltas) ∧
  ∀ d ∈ spDeltas, ∃ c v, spDelta c v = d

/-! ### The ALU -/

/-- R123: the ripple algorithm, position by position. -/
def Obligations.CombineIsTheRippleChain : Prop :=
  ∀ (n : Width) (a b : BitVec n.bits) (st : AluSettings), ∃ c : Nat → Bool,
    c 0 = st.carryIn ∧
    (∀ i < n.bits,
      let aBit := a.getLsbD i ^^ st.invertA
      let bBit := b.getLsbD i ^^ st.invertB
      (combine a b st).result.getLsbD i =
        (if st.orMode then (aBit || bBit) ^^ c i else (aBit ^^ bBit) ^^ c i) ∧
      c (i + 1) =
        (if st.floodCarry then true
         else if st.orMode then aBit && bBit && c i
         else decide (2 ≤ aBit.toNat + bBit.toNat + (c i).toNat))) ∧
    (combine a b st).carry = c n.bits ∧
    (combine a b st).zero = decide ((combine a b st).result = 0) ∧
    (combine a b st).sign = (combine a b st).result.msb

/-- 44_alu_combine.md R128 (derived by the spec): the adder mode adds the operands after inversion and the
carry-in, modulo 2^N, and the carry-out says whether the sum reached 2^N. -/
def Obligations.AdderModeAdds : Prop :=
  ∀ (n : Width) (a b : BitVec n.bits) (st : AluSettings),
    st.floodCarry = false → st.orMode = false →
    let a1 := if st.invertA then ~~~a else a
    let b1 := if st.invertB then ~~~b else b
    (combine a b st).result.toNat = (a1.toNat + b1.toNat + st.carryIn.toNat) % 2 ^ n.bits ∧
    (combine a b st).carry = decide (2 ^ n.bits ≤ a1.toNat + b1.toNat + st.carryIn.toNat)

/-- R129, R134: the source's testable properties of the ALU, at both widths: additive identity, subtraction
equivalence, flood-carry's carry-out, and OR mode without carry. -/
def Obligations.SourceAluProperties : Prop :=
  ∀ (n : Width) (a b : BitVec n.bits),
    combine a 0 ⟨false, false, false, false, false⟩ = ⟨a, false, decide (a = 0), a.msb⟩ ∧
    (combine a b ⟨false, true, false, true, false⟩).result = a - b ∧
    (∀ st : AluSettings, st.floodCarry = true → (combine a b st).carry = true) ∧
    ∀ invA invB : Bool,
      (combine a b ⟨invA, invB, false, false, true⟩).result =
        (if invA then ~~~a else a) ||| (if invB then ~~~b else b) ∧
      (combine a b ⟨invA, invB, false, false, true⟩).carry = false

/-- 44_alu_combine.md R135 (derived by the spec): a subtraction's carry says that there was no borrow, its
zero that the operands are equal. -/
def Obligations.SubtractionComparesUnsigned : Prop :=
  ∀ (n : Width) (a b : BitVec n.bits),
    let o := combine a b ⟨false, true, false, true, false⟩
    o.carry = decide (b.toNat ≤ a.toNat) ∧ o.zero = decide (a = b)

/-- 44_alu_combine.md R130 (derived by the spec): OR mode with the carry-in set. -/
def Obligations.OrModeWithCarry : Prop :=
  ∀ (n : Width) (a b : BitVec n.bits) (invA invB : Bool),
    let a1 := if invA then ~~~a else a
    let b1 := if invB then ~~~b else b
    let o := combine a b ⟨invA, invB, false, true, true⟩
    o.result = (a1 ||| b1) ^^^ ((a1 &&& b1) ^^^ ((a1 &&& b1) + 1)) ∧
    o.carry = decide (a1 = BitVec.allOnes n.bits ∧ b1 = BitVec.allOnes n.bits)

/-- 44_alu_combine.md R131, R132 (derived by the spec): under flood carry position 0 sees the carry-in, every
later position carry 1. -/
def Obligations.FloodCarryResult : Prop :=
  ∀ (n : Width) (a b : BitVec n.bits) (st : AluSettings), st.floodCarry = true →
    let a1 := if st.invertA then ~~~a else a
    let b1 := if st.invertB then ~~~b else b
    let t := BitVec.allOnes n.bits - 1 + (if st.carryIn then 1 else 0)
    (combine a b st).result = (if st.orMode then a1 ||| b1 else a1 ^^^ b1) ^^^ t ∧
    (combine a b st).carry = true

/-- The result column of the table of all 32 settings values (44_alu_combine.md R133): `flip v` is v with
bit 0 inverted, `t m` is the table's T(m). -/
def settingsTableResult {n : Nat} (a b : BitVec n) (st : AluSettings) : BitVec n :=
  let flip (v : BitVec n) := v ^^^ 1
  let t (m : BitVec n) := m ^^^ (m + 1)
  match st with
  | ⟨false, false, false, false, false⟩ => a + b
  | ⟨false, false, false, false, true⟩ => a ||| b
  | ⟨false, false, false, true, false⟩ => a + b + 1
  | ⟨false, false, false, true, true⟩ => (a ||| b) ^^^ t (a &&& b)
  | ⟨false, false, true, false, false⟩ => flip (~~~(a ^^^ b))
  | ⟨false, false, true, false, true⟩ => flip (~~~(a ||| b))
  | ⟨false, false, true, true, false⟩ => ~~~(a ^^^ b)
  | ⟨false, false, true, true, true⟩ => ~~~(a ||| b)
  | ⟨false, true, false, false, false⟩ => a - b - 1
  | ⟨false, true, false, false, true⟩ => a ||| ~~~b
  | ⟨false, true, false, true, false⟩ => a - b
  | ⟨false, true, false, true, true⟩ => (a ||| ~~~b) ^^^ t (a &&& ~~~b)
  | ⟨false, true, true, false, false⟩ => flip (a ^^^ b)
  | ⟨false, true, true, false, true⟩ => flip (~~~a &&& b)
  | ⟨false, true, true, true, false⟩ => a ^^^ b
  | ⟨false, true, true, true, true⟩ => ~~~a &&& b
  | ⟨true, false, false, false, false⟩ => b - a - 1
  | ⟨true, false, false, false, true⟩ => ~~~a ||| b
  | ⟨true, false, false, true, false⟩ => b - a
  | ⟨true, false, false, true, true⟩ => (~~~a ||| b) ^^^ t (~~~a &&& b)
  | ⟨true, false, true, false, false⟩ => flip (a ^^^ b)
  | ⟨true, false, true, false, true⟩ => flip (a &&& ~~~b)
  | ⟨true, false, true, true, false⟩ => a ^^^ b
  | ⟨true, false, true, true, true⟩ => a &&& ~~~b
  | ⟨true, true, false, false, false⟩ => -a - b - 2
  | ⟨true, true, false, false, true⟩ => ~~~(a &&& b)
  | ⟨true, true, false, true, false⟩ => -a - b - 1
  | ⟨true, true, false, true, true⟩ => ~~~(a &&& b) ^^^ t (~~~(a ||| b))
  | ⟨true, true, true, false, false⟩ => flip (~~~(a ^^^ b))
  | ⟨true, true, true, false, true⟩ => flip (a &&& b)
  | ⟨true, true, true, true, false⟩ => ~~~(a ^^^ b)
  | ⟨true, true, true, true, true⟩ => a &&& b

/-- The carry column of the table (44_alu_combine.md R133). -/
def settingsTableCarry {n : Nat} (a b : BitVec n) (st : AluSettings) : Bool :=
  let x := a.toNat
  let y := b.toNat
  let full := BitVec.allOnes n
  match st with
  | ⟨_, _, true, _, _⟩ => true
  | ⟨_, _, false, false, true⟩ => false
  | ⟨false, false, false, false, false⟩ => decide (2 ^ n ≤ x + y)
  | ⟨false, false, false, true, false⟩ => decide (2 ^ n ≤ x + y + 1)
  | ⟨false, true, false, false, false⟩ => decide (y < x)
  | ⟨false, true, false, true, false⟩ => decide (y ≤ x)
  | ⟨true, false, false, false, false⟩ => decide (x < y)
  | ⟨true, false, false, true, false⟩ => decide (x ≤ y)
  | ⟨true, true, false, false, false⟩ => decide (x + y ≤ 2 ^ n - 2)
  | ⟨true, true, false, true, false⟩ => decide (x + y ≤ 2 ^ n - 1)
  | ⟨false, false, false, true, true⟩ => decide (a = full ∧ b = full)
  | ⟨false, true, false, true, true⟩ => decide (a = full ∧ b = 0)
  | ⟨true, false, false, true, true⟩ => decide (a = 0 ∧ b = full)
  | ⟨true, true, false, true, true⟩ => decide (a = 0 ∧ b = 0)

/-- 44_alu_combine.md R133 (derived by the spec): every row of the table of all 32 settings values, at both
widths. -/
def Obligations.AllSettingsTable : Prop :=
  ∀ (n : Width) (a b : BitVec n.bits) (st : AluSettings),
    (combine a b st).result = settingsTableResult a b st ∧
    (combine a b st).carry = settingsTableCarry a b st

/-- 44_alu_combine.md R126 (derived by the spec): one algorithm for both widths, so the 8-bit result is the low
byte of the 16-bit result. -/
def Obligations.BothWidthsAgreeOnLowByte : Prop :=
  ∀ (a b : Word) (st : AluSettings),
    (combine (lowByte a) (lowByte b) st).result = lowByte (combine a b st).result

/-- 70_reset_and_hazards.md R186 (derived by the spec): a driver chains a carry by choosing the second
addition's carry-in from the first one's carry flag; the two words together are the 32-bit sum. -/
def Obligations.ChainedCarryAddsThirtyTwoBits : Prop :=
  ∀ aHi aLo bHi bLo : Word,
    let lo := combine aLo bLo ⟨false, false, false, false, false⟩
    let hi := combine aHi bHi ⟨false, false, false, lo.carry, false⟩
    hi.result ++ lo.result = (aHi ++ aLo) + (bHi ++ bLo) ∧
    hi.carry = decide (2 ^ 32 ≤ (aHi ++ aLo).toNat + (bHi ++ bLo).toNat)

/-! ### Register file, flags register, memory -/

/-- R12, R13: the register file's two operations, every index. -/
def Obligations.RegisterFileContract : Prop :=
  ∀ (s : State) (v : Word),
    (s.regRead 0 = .ok 0 ∧ s.regRead 1 = .ok s.x1 ∧ s.regRead 2 = .ok s.x2 ∧ s.regRead 3 = .ok s.x3) ∧
    (∀ i, 4 ≤ i → s.regRead i = .error (.invalidRegister i) ∧
      s.regWrite i v = .error (.invalidRegister i)) ∧
    s.regWrite 0 v = .ok s ∧
    ∀ i, 0 < i → i < 4 → ∃ t, s.regWrite i v = .ok t ∧ t.regRead i = .ok v ∧
      (∀ j, j ≠ i → t.regRead j = s.regRead j) ∧ SameFlags s t ∧ t.mem = s.mem

/-- R20: `flag_set` at every index; the other five bits keep their values. -/
def Obligations.FlagSetContract : Prop :=
  ∀ (s : State) (v : Bool) (w : Width),
    s.flagSet 0 v w = .ok s ∧
    (∀ k, 4 ≤ k → s.flagSet k v w = .error (.invalidFlag k)) ∧
    ∀ k, 0 < k → k < 4 → ∃ t, s.flagSet k v w = .ok t ∧ t.flagGet k w = .ok v ∧
      (∀ j u, (j ≠ k ∨ u ≠ w) → t.flagGet j u = s.flagGet j u) ∧ SameRegs s t ∧ t.mem = s.mem

/-- 10_state.md, the flag index map and `flag_get` (its error for an index of 4 or more is the spec's decision
D17, log 28). -/
def Obligations.FlagGetContract : Prop :=
  ∀ (s : State) (w : Width),
    s.flagGet 0 w = .ok true ∧ s.flagGet 1 w = .ok (s.slot w).carry ∧
    s.flagGet 2 w = .ok (s.slot w).zero ∧ s.flagGet 3 w = .ok (s.slot w).sign ∧
    ∀ k, 4 ≤ k → s.flagGet k w = .error (.invalidFlag k)

/-- 10_state.md R21: the ALU's flag write overwrites all three flags of the slot the caller selects and nothing
else, and it is optional: without it the same outputs of `combine_N` are answered and no flag is written. At 8 bits the
driver's call hands over the low bytes of two words and the result stands zero-extended in the answer: the
model's form of the call (log 32), as is that the answer stands on a port. -/
def Obligations.AluFlagWriteIsOptionalAndWhole : Prop :=
  (∀ (s : State) (w : Width) (c z sg : Bool),
    (s.flagsWrite w c z sg).slot w = ⟨c, z, sg⟩ ∧
    (∀ u, u ≠ w → (s.flagsWrite w c z sg).slot u = s.slot u) ∧
    SameRegs s (s.flagsWrite w c z sg) ∧ (s.flagsWrite w c z sg).mem = s.mem) ∧
  ∀ (s : State) (a b : Word) (st : AluSettings),
    (let o := combine a b st
     s.callOp (.combine .w16 a b st none) = .ok (.alu o.result o.carry o.zero o.sign, s) ∧
     ∀ w, s.callOp (.combine .w16 a b st (some w)) =
       .ok (.alu o.result o.carry o.zero o.sign, s.flagsWrite w o.carry o.zero o.sign)) ∧
    (let o := combine (lowByte a) (lowByte b) st
     s.callOp (.combine .w8 a b st none) = .ok (.alu (0#8 ++ o.result) o.carry o.zero o.sign, s) ∧
     ∀ w, s.callOp (.combine .w8 a b st (some w)) =
       .ok (.alu (0#8 ++ o.result) o.carry o.zero o.sign, s.flagsWrite w o.carry o.zero o.sign))

/-- R43, R44, R45: 16-bit little-endian access at every address, 0xFFFF included, where the second byte is
byte 0. -/
def Obligations.LittleEndianAccess : Prop :=
  ∀ (s : State) (a v : Word),
    s.memRead16 .little a = s.memRead8 (a + 1) ++ s.memRead8 a ∧
    s.memRead16 .little 0xFFFF = s.memRead8 0 ++ s.memRead8 0xFFFF ∧
    (s.memWrite16 .little a v).memRead8 a = v.extractLsb' 0 8 ∧
    (s.memWrite16 .little a v).memRead8 (a + 1) = v.extractLsb' 8 8 ∧
    SameMemoryBut a (a + 1) s (s.memWrite16 .little a v) ∧
    (s.memWrite16 .little a v).memRead16 .little a = v

/-- 20_memory.md, byte access (derived by the spec) and the big-endian twin (the spec's decision D21, log 26):
the most significant byte at the lower address. -/
def Obligations.ByteAndBigEndianAccess : Prop :=
  ∀ (s : State) (a v : Word) (y : Byte),
    (s.memWrite8 a y).memRead8 a = y ∧
    (∀ x, x ≠ a → (s.memWrite8 a y).memRead8 x = s.memRead8 x) ∧
    s.memRead16 .big a = s.memRead8 a ++ s.memRead8 (a + 1) ∧
    (s.memWrite16 .big a v).memRead8 a = v.extractLsb' 8 8 ∧
    (s.memWrite16 .big a v).memRead8 (a + 1) = v.extractLsb' 0 8 ∧
    SameMemoryBut a (a + 1) s (s.memWrite16 .big a v) ∧
    (s.memWrite16 .big a v).memRead16 .big a = v

/-- 20_memory.md R55 (decision D20, log 33): a driver that fetches from this memory sees every earlier store:
the next step runs the stored word. -/
def Obligations.StoredWordIsFetched : Prop :=
  ∀ (s : State) (o : ByteOrder) (w : Word) (inp : Inputs) (rest : List DriverAction),
    s.pending = .present (.atPc o) inp :: rest →
    step (s.memWrite16 o s.pc w) = exec (decodeRow w) ((s.memWrite16 o s.pc w).accept rest inp)

/-! ### Steps -/

/-- The model's invariant (log 5) holds in the reset state. -/
def Obligations.ResetMeetsInvariant : Prop := State.reset.Inv

/-- The model's invariant (log 5): from every state in which memory has its canonical form, a step that goes
on leaves it so. -/
def Obligations.StepKeepsInvariant : Prop :=
  ∀ s t : State, s.Inv → step s = .next t → t.Inv

/-- 10_state.md R33 (derived by the spec): the structural constants read as they must in every state. -/
def Obligations.ConstantsReadTheSame : Prop :=
  ∀ s : State, s.regRead 0 = .ok 0 ∧ ∀ w, s.flagGet 0 w = .ok true

/-- The model's step (log 1, log 2): a presented word is decoded and executed, with the driver's action taken
off and what it brings on the input port; this is what `withFetchWord` sets up. -/
def Obligations.StepRunsThePresentedInstruction : Prop :=
  (∀ (s : State) (w : Word) (inp : Inputs) (rest : List DriverAction),
    s.pending = .present (.given w) inp :: rest →
    step s = exec (decodeRow w) { s with pending := rest, inputs := inp }) ∧
  (∀ (s : State) (o : ByteOrder) (inp : Inputs) (rest : List DriverAction),
    s.pending = .present (.atPc o) inp :: rest →
    step s = exec (decodeRow (s.memRead16 o s.pc)) { s with pending := rest, inputs := inp }) ∧
  ∀ (s : State) (w : Word), step (s.withFetchWord 16 w.toNat) = exec (decodeRow w) s

/-- The model's step (log 1, log 31, log 32): a block operation's answer goes to the port, an error ends the
run, and with nothing pending the driver has stopped. For each operation that succeeds, its answer and the
state it leaves (R12, R13, R19, R20, R42 to R44, R61, R120, R125; the big-endian twin is the spec's decision
D21, log 26). -/
def Obligations.StepPerformsBlockOperations : Prop :=
  (∀ (s : State) (op : BlockOp) (rest : List DriverAction), s.pending = .perform op :: rest →
    (∀ r t, State.callOp { s with pending := rest } op = .ok (r, t) →
      step s = .next { t with reply := r }) ∧
    (∀ e, State.callOp { s with pending := rest } op = .error e → step s = .fault (faultOf e))) ∧
  (∀ s : State, s.pending = [] → step s = .fault .driverStopped) ∧
  ∀ s : State,
    (∀ w d, decode w = .ok d → s.callOp (.decode w) = .ok (.decoded d, s)) ∧
    (∀ a b st slot,
      let o := combine a b st
      s.callOp (.combine .w16 a b st slot) = .ok (.alu o.result o.carry o.zero o.sign,
        match slot with | none => s | some w => s.setSlot w ⟨o.carry, o.zero, o.sign⟩)) ∧
    (∀ a b st slot,
      let o := combine (lowByte a) (lowByte b) st
      s.callOp (.combine .w8 a b st slot) = .ok (.alu (0#8 ++ o.result) o.carry o.zero o.sign,
        match slot with | none => s | some w => s.setSlot w ⟨o.carry, o.zero, o.sign⟩)) ∧
    (s.callOp (.regRead 0) = .ok (.word 0, s) ∧ s.callOp (.regRead 1) = .ok (.word s.x1, s) ∧
      s.callOp (.regRead 2) = .ok (.word s.x2, s) ∧ s.callOp (.regRead 3) = .ok (.word s.x3, s)) ∧
    (∀ v, s.callOp (.regWrite 0 v) = .ok (.done, s) ∧
      s.callOp (.regWrite 1 v) = .ok (.done, { s with x1 := v }) ∧
      s.callOp (.regWrite 2 v) = .ok (.done, { s with x2 := v }) ∧
      s.callOp (.regWrite 3 v) = .ok (.done, { s with x3 := v })) ∧
    (∀ w, s.callOp (.flagGet 0 w) = .ok (.flag true, s) ∧
      s.callOp (.flagGet 1 w) = .ok (.flag (s.slot w).carry, s) ∧
      s.callOp (.flagGet 2 w) = .ok (.flag (s.slot w).zero, s) ∧
      s.callOp (.flagGet 3 w) = .ok (.flag (s.slot w).sign, s)) ∧
    (∀ v w, s.callOp (.flagSet 0 v w) = .ok (.done, s) ∧
      s.callOp (.flagSet 1 v w) = .ok (.done, s.setSlot w { s.slot w with carry := v }) ∧
      s.callOp (.flagSet 2 v w) = .ok (.done, s.setSlot w { s.slot w with zero := v }) ∧
      s.callOp (.flagSet 3 v w) = .ok (.done, s.setSlot w { s.slot w with sign := v })) ∧
    (∀ a, s.callOp (.memRead8 a) = .ok (.byte (s.memRead8 a), s) ∧
      s.callOp (.memRead16 .little a) = .ok (.word (s.memRead8 (a + 1) ++ s.memRead8 a), s) ∧
      s.callOp (.memRead16 .big a) = .ok (.word (s.memRead8 a ++ s.memRead8 (a + 1)), s)) ∧
    (∀ a v, s.callOp (.memWrite8 a v) = .ok (.done, s.memWrite8 a v)) ∧
    ∀ a v : Word,
      s.callOp (.memWrite16 .little a v) =
        .ok (.done, (s.memWrite8 a (v.extractLsb' 0 8)).memWrite8 (a + 1) (v.extractLsb' 8 8)) ∧
      s.callOp (.memWrite16 .big a v) =
        .ok (.done, (s.memWrite8 a (v.extractLsb' 8 8)).memWrite8 (a + 1) (v.extractLsb' 0 8))

/-- The model's form of a taken call's saving operations (log 13): operations put before the rest run one a
step, in their order, each as any block operation does, so that one that errs ends the run there. -/
def Obligations.CalledOperationsRunNextInOrder : Prop :=
  ∀ (s : State) (op : BlockOp) (ops : List BlockOp),
    step (s.callNext (op :: ops)) = State.perform (s.callNext ops) op ∧
    (∀ e, s.callOp op = .error e → step (s.callNext (op :: ops)) = .fault (faultOf e)) ∧
    s.callNext [] = s

/-- 60_exceptions.md (decision D16, log 28): which block operations err, with which error; no block operation
is refused. -/
def Obligations.BlockOperationErrors : Prop :=
  ∀ (s : State) (op : BlockOp),
    (∀ f, s.perform op = .fault f ↔
      (∃ i, 4 ≤ i ∧ f = .invalidRegister i ∧ (op = .regRead i ∨ ∃ v, op = .regWrite i v)) ∨
      (∃ i w, 4 ≤ i ∧ f = .invalidFlag i ∧ (op = .flagGet i w ∨ ∃ v, op = .flagSet i v w)) ∨
      (∃ w : Word, op = .decode w ∧ w.toNat / 4096 ∈ [5, 8, 9, 10, 11, 12, 13, 14] ∧
        f = .invalidOpcode (BitVec.ofNat 4 (w.toNat / 4096)))) ∧
    ∀ x, s.perform op ≠ .refused x

/-- 45_execute_contract.md, the host (decision D24): a block operation the driver calls changes registers only
by `reg_write`, flags only by `flag_set` or the ALU's flag write, memory only by a memory write. That it
leaves the driver's program counter, stack pointer, inputs and what it does next alone is the model's choice
(log 1, log 36; D24 speaks of the block's state only). Each of these changes no other slot, flag or byte than the
one it names (R13, R20, R21, R42, R44). -/
def Obligations.BlockOperationFrame : Prop :=
  ∀ (s t : State) (op : BlockOp), s.perform op = .next t →
    ((∀ i v, op ≠ .regWrite i v) → SameRegs s t) ∧
    ((∀ i v w, op ≠ .flagSet i v w) → (∀ n a b st w, op ≠ .combine n a b st (some w)) →
      SameFlags s t) ∧
    ((∀ a v, op ≠ .memWrite8 a v) → (∀ o a v, op ≠ .memWrite16 o a v) → SameMemory s t) ∧
    (∀ i v, op = .regWrite i v → ∀ j : BitVec 2, j.toNat ≠ i → t.reg j = s.reg j) ∧
    (∀ i v w, op = .flagSet i v w → ∀ j u, (j ≠ i ∨ u ≠ w) → t.flagGet j u = s.flagGet j u) ∧
    (∀ n a b st w, op = .combine n a b st (some w) → ∀ u, u ≠ w → t.slot u = s.slot u) ∧
    (∀ a v, op = .memWrite8 a v → ∀ x, x ≠ a → t.memRead8 x = s.memRead8 x) ∧
    (∀ o a v, op = .memWrite16 o a v → SameMemoryBut a (a + 1) s t) ∧
    t.pc = s.pc ∧ t.sp = s.sp ∧ t.inputs = s.inputs ∧ t.pending = s.pending

/-- 45_execute_contract.md, the summary of what each family can change, and 10_state.md, what sets the flags.
The summary leaves LOAD, STORE, JUMP, SREAD and SWRITE to the driver (R151, D9): that they change nothing
further is the model's choice (log 12, log 20, log 21, log 35), as is that a taken subroutine call saves its
return address by operations of its own steps (log 13). -/
def Obligations.WhatEachFamilyCanChange : Prop :=
  ∀ (i : Instr) (s t : State), exec i s = .next t →
    (SameRegs s t ∨ (∃ a m st w, i = .op a m st w false) ∨ (∃ d b m e w sh, i = .load d b m e w sh) ∨
      ∃ r b f c v, i = .sread r b f c v ∨ i = .swrite r b f c v) ∧
    (SameFlags s t ∨ ∃ a m st w, i = .op a m st w false ∨ i = .cmp a m st w false) ∧
    (SameMemory s t ∨ (∃ r b m e w sh, i = .store r b m e w sh) ∨
      ∃ r b f c v, i = .sread r b f c v ∨ i = .swrite r b f c v) ∧
    (t.sp = s.sp ∨ (∃ r b f c v, i = .sread r b f c v ∨ i = .swrite r b f c v) ∨
      ∃ b sh inv k, i = .jump b sh inv k true ∧ s.jumpTaken k inv = true) ∧
    (t.pending = s.pending ∨
      ∃ b sh inv k, i = .jump b sh inv k true ∧ s.jumpTaken k inv = true) ∧
    t.inputs = s.inputs ∧ t.reply = s.reply

/-- 70_reset_and_hazards.md: a run can end only by the driver's choice or at a refused or invalid word (or an
operation that errs): while every action the driver will take is a handed-over word that runs or an operation
that cannot err, and no call among those words saves its return address by an operation that can err (the
driver's open choice, log 13), no step meets an error or a refusal. A fetched word, which depends on the
state, is StepGoesOnExactlyWhenItsActionRuns's. -/
def Obligations.RunEndsOnlyAtErrorsAndRefusals : Prop :=
  ∀ (k : Nat) (s : State), (∀ x ∈ s.pending, actionOk x = true ∧ savesOk x) → SafeFor k s

/-- 70_reset_and_hazards.md and 60_exceptions.md: a step goes on exactly when the driver does something and that
has an execution rule: a word, handed over or fetched at the program counter, that is neither refused nor
invalid, or an operation that cannot err. That a refused word, an error and the driver's end stop the run are
the spec's decisions D23, D16 and D24 (log 27, log 28, log 31). That a fetch works at every program counter,
odd ones and 0xFFFF included, and never errs is the model's choice (log 33; the source says nothing of fetch
alignment, 20_memory.md R47, R48, D13); that it sees every earlier store is R55 under D20. -/
def Obligations.StepGoesOnExactlyWhenItsActionRuns : Prop :=
  ∀ s : State,
    ((∃ t, step s = .next t) ↔ s.pending ≠ [] ∧ s.nextActionOk = true) ∧
    (∀ (o : ByteOrder) (inp : Inputs) (rest : List DriverAction),
      s.pending = .present (.atPc o) inp :: rest →
      ((∃ t, step s = .next t) ↔ runs (decodeRow (s.memRead16 o s.pc)) = true))

/-! ### Operation and Comparison -/

/-- 45_execute_contract.md, operand resolution by source mode (log 7); which byte an 8-bit operation takes from
a big-endian memory operand is open (log 8). -/
def Obligations.OperandByMode : Prop :=
  ∀ (s : State) (w : Bool),
    s.bOperand .immediate w = s.inputs.immediate ∧
    s.bOperand .register w = s.reg s.inputs.register ∧
    s.bOperand .memoryLE w =
      s.memRead8 (s.inputs.address + 1) ++ s.memRead8 s.inputs.address ∧
    s.bOperand .memoryBE false =
      s.memRead8 s.inputs.address ++ s.memRead8 (s.inputs.address + 1) ∧
    (lowByte (s.bOperand .memoryBE true) = s.memRead8 s.inputs.address ∨
      lowByte (s.bOperand .memoryBE true) = s.memRead8 (s.inputs.address + 1))

/-- 45_execute_contract.md, the reference execution at 16 bits (decision D10, log 9): result, flags, frame,
and the driver's uninterpreted advance (log 14). -/
def Obligations.OperationSixteenBitResult : Prop :=
  ∀ (a : BitVec 2) (m : SourceMode) (st : AluSettings) (s : State), ∃ t,
    exec (.op a m st false false) s = .next t ∧
    t.reg a = (if a = 0 then 0 else (combine (s.reg a) (s.bOperand m false) st).result) ∧
    SameRegsBut a s t ∧
    t.f16 = ⟨(combine (s.reg a) (s.bOperand m false) st).carry,
      (combine (s.reg a) (s.bOperand m false) st).zero,
      (combine (s.reg a) (s.bOperand m false) st).sign⟩ ∧
    t.f8 = s.f8 ∧ SameMemory s t ∧ t.pc = Config.nextPc (.op a m st false false) s.inputs s.pc ∧
    t.sp = s.sp ∧ SamePorts s t

/-- 45_execute_contract.md, the reference execution at 8 bits (decisions D10, D11, log 9, log 10): low bytes
combined, the W8 flags, bits 7:0 of the destination the result, bits 15:8 open; the advance is the driver's
(log 14). -/
def Obligations.OperationEightBitResult : Prop :=
  ∀ (a : BitVec 2) (m : SourceMode) (st : AluSettings) (s : State), ∃ t,
    exec (.op a m st true false) s = .next t ∧
    (a ≠ 0 → lowByte (t.reg a) =
      (combine (lowByte (s.reg a)) (lowByte (s.bOperand m true)) st).result) ∧
    SameRegsBut a s t ∧ t.reg 0 = 0 ∧
    t.f8 = ⟨(combine (lowByte (s.reg a)) (lowByte (s.bOperand m true)) st).carry,
      (combine (lowByte (s.reg a)) (lowByte (s.bOperand m true)) st).zero,
      (combine (lowByte (s.reg a)) (lowByte (s.bOperand m true)) st).sign⟩ ∧
    t.f16 = s.f16 ∧ SameMemory s t ∧ t.pc = Config.nextPc (.op a m st true false) s.inputs s.pc ∧
    t.sp = s.sp ∧ SamePorts s t

/-- 45_execute_contract.md, Comparison (derived by the spec; decision D10, log 9): only the flags of its own
width slot change, at both widths, and the program counter by the driver's advance (log 14). -/
def Obligations.ComparisonResult : Prop :=
  ∀ (a : BitVec 2) (m : SourceMode) (st : AluSettings) (s : State),
    (∃ t, exec (.cmp a m st false false) s = .next t ∧ SameRegs s t ∧
      t.f16 = ⟨(combine (s.reg a) (s.bOperand m false) st).carry,
        (combine (s.reg a) (s.bOperand m false) st).zero,
        (combine (s.reg a) (s.bOperand m false) st).sign⟩ ∧
      t.f8 = s.f8 ∧ SameMemory s t ∧ t.pc = Config.nextPc (.cmp a m st false false) s.inputs s.pc ∧
      t.sp = s.sp ∧ SamePorts s t) ∧
    (∃ t, exec (.cmp a m st true false) s = .next t ∧ SameRegs s t ∧
      t.f8 = ⟨(combine (lowByte (s.reg a)) (lowByte (s.bOperand m true)) st).carry,
        (combine (lowByte (s.reg a)) (lowByte (s.bOperand m true)) st).zero,
        (combine (lowByte (s.reg a)) (lowByte (s.bOperand m true)) st).sign⟩ ∧
      t.f16 = s.f16 ∧ SameMemory s t ∧ t.pc = Config.nextPc (.cmp a m st true false) s.inputs s.pc ∧
      t.sp = s.sp ∧ SamePorts s t)

/-- 45_execute_contract.md, the unit selector (decision D23, log 27): a set bit is refused, never run on the
ALU and never a no-op. -/
def Obligations.UnitSelectorIsRefused : Prop :=
  ∀ (a : BitVec 2) (m : SourceMode) (st : AluSettings) (w : Bool) (s : State),
    exec (.op a m st w true) s = .refused .unspecifiedUnit ∧
    exec (.cmp a m st w true) s = .refused .unspecifiedUnit

/-- 45_execute_contract.md R145 (derived by the spec): a register-mode operand naming the a register's own slot
gives the old value on both sides: adding doubles it, subtracting clears it with carry and zero set. -/
def Obligations.SameSlotUsesOldValueTwice : Prop :=
  ∀ (a : BitVec 2) (s : State), s.inputs.register = a →
    (∃ t, exec (.op a .register ⟨false, false, false, false, false⟩ false false) s = .next t ∧
      t.reg a = s.reg a + s.reg a) ∧
    (∃ t, exec (.op a .register ⟨false, true, false, true, false⟩ false false) s = .next t ∧
      t.reg a = 0 ∧ t.f16 = ⟨true, true, false⟩)

/-- 70_reset_and_hazards.md R183: an AND with 0 gives 0 whatever the register held. Its flags are the ALU's
for that settings value (44_alu_combine.md R133: zero set, sign clear, carry 1 under flood carry), written into
the operation's own width slot by the spec's decision D10 (log 9). -/
def Obligations.AndWithZeroGivesKnownValue : Prop :=
  ∀ (a : BitVec 2) (m : SourceMode) (s : State), s.bOperand m false = 0 →
    ∃ t, exec (.op a m ⟨true, true, true, true, true⟩ false false) s = .next t ∧
      t.reg a = 0 ∧ t.f16 = ⟨true, true, false⟩

/-- 45_execute_contract.md, low bytes (decision D11) and 95_test_vectors.md program 2: in every source mode an
8-bit comparison learns nothing of the high bytes of its operands. -/
def Obligations.EightBitComparisonIgnoresHighBytes : Prop :=
  ∀ (a : BitVec 2) (m : SourceMode) (st : AluSettings) (s s' t t' : State),
    lowByte (s.reg a) = lowByte (s'.reg a) →
    lowByte (s.bOperand m true) = lowByte (s'.bOperand m true) →
    exec (.cmp a m st true false) s = .next t →
    exec (.cmp a m st true false) s' = .next t' → t.f8 = t'.f8

/-! ### Load and Store -/

/-- 41_decode_load_store.md and 10_state.md R16 under the driver's uninterpreted formulas (log 14 to 18, 20): a
Load completes, writes its destination and advances, and nothing else; by memory mode and width, what it
loads. -/
def Obligations.LoadResult : Prop :=
  ∀ (d b : BitVec 2) (m : LoadMode) (e w : Bool) (sh : BitVec 3) (s : State), ∃ t,
    exec (.load d b m e w sh) s = .next t ∧
    SameRegsBut d s t ∧ t.reg 0 = 0 ∧ SameFlags s t ∧ SameMemory s t ∧
    t.pc = Config.nextPc (.load d b m e w sh) s.inputs s.pc ∧ t.sp = s.sp ∧ SamePorts s t ∧
    (d ≠ 0 →
      let order : ByteOrder := if e = Config.lsBigEndianWhen then .big else .little
      let direct := Config.directAddress .load s.inputs.address (s.reg b) sh
      let indirect := Config.indirectAddress .load (s.reg s.inputs.register) (s.reg b) sh
      if w = Config.lsEightBitWhen then
        lowByte (t.reg d) = (match m with
          | .immediate => Config.loadDatum8 .immediate e s.inputs.immediate (s.reg b) sh
          | .directAddress => s.memRead8 direct
          | .register => Config.loadDatum8 .register e (s.reg s.inputs.register) (s.reg b) sh
          | .addressRegisterIndirect => s.memRead8 indirect)
      else
        t.reg d = (match m with
          | .immediate => Config.loadDatum16 .immediate e s.inputs.immediate (s.reg b) sh
          | .directAddress => s.memRead16 order direct
          | .register => Config.loadDatum16 .register e (s.reg s.inputs.register) (s.reg b) sh
          | .addressRegisterIndirect => s.memRead16 order indirect))

/-- 41_decode_load_store.md and 10_state.md R16 under the driver's uninterpreted formulas (log 14, 15, 17, 19,
20): a Store completes, writes its one or two bytes and advances, and nothing else. -/
def Obligations.StoreResult : Prop :=
  ∀ (r b : BitVec 2) (m : StoreMode) (e w : Bool) (sh : BitVec 3) (s : State), ∃ t,
    exec (.store r b m e w sh) s = .next t ∧
    SameRegs s t ∧ SameFlags s t ∧ t.pc = Config.nextPc (.store r b m e w sh) s.inputs s.pc ∧
    t.sp = s.sp ∧ SamePorts s t ∧
    let ea := match m with
      | .directAddress => Config.directAddress .store s.inputs.address (s.reg b) sh
      | .addressRegisterIndirect =>
        Config.indirectAddress .store (s.reg s.inputs.register) (s.reg b) sh
    if w = Config.lsEightBitWhen then
      t.memRead8 ea = (if Config.storesHighByte then highByte (s.reg r) else lowByte (s.reg r)) ∧
      ∀ x, x ≠ ea → t.memRead8 x = s.memRead8 x
    else
      t.memRead16 (if e = Config.lsBigEndianWhen then .big else .little) ea = s.reg r ∧
      SameMemoryBut ea (ea + 1) s t

/-! ### Jump -/

/-- 45_execute_contract.md, a Jump's condition (decision D12, log 11): index 0 is the constant true, 1 to 3 the
carry, zero and sign of one fixed width slot, inverted or not. -/
def Obligations.JumpCondition : Prop :=
  ∃ w : Width, ∀ (s : State) (inverted : Bool),
    s.jumpTaken 0 inverted = !inverted ∧
    s.jumpTaken 1 inverted = ((s.slot w).carry ^^ inverted) ∧
    s.jumpTaken 2 inverted = ((s.slot w).zero ^^ inverted) ∧
    s.jumpTaken 3 inverted = ((s.slot w).sign ^^ inverted)

/-- 45_execute_contract.md, Jump under the driver's uninterpreted formulas (log 12, log 14): a Jump that is no
subroutine call, or is not taken, completes: to the target when taken, past the word when not. That it changes
the program counter only is the model's choice (log 35; R151 leaves it to the driver). -/
def Obligations.JumpResult : Prop :=
  ∀ (b : BitVec 2) (sh : BitVec 3) (inv : Bool) (k : BitVec 2) (call : Bool) (s : State),
    (call = false ∨ s.jumpTaken k inv = false) → ∃ t,
      exec (.jump b sh inv k call) s = .next t ∧
      SameRegs s t ∧ SameFlags s t ∧ SameMemory s t ∧ t.sp = s.sp ∧ SamePorts s t ∧
      t.pc = (if s.jumpTaken k inv then Config.jumpTarget s.inputs s.pc (s.reg b) sh call
        else Config.nextPc (.jump b sh inv k call) s.inputs s.pc)

/-- 45_execute_contract.md, a taken subroutine call under the driver's uninterpreted formulas (log 12, log 13,
log 35): it completes at the target with the driver's next stack pointer, and the operations that save its
return address are what the driver does next. -/
def Obligations.SubroutineCallResult : Prop :=
  ∀ (b : BitVec 2) (sh : BitVec 3) (inv : Bool) (k : BitVec 2) (s : State),
    s.jumpTaken k inv = true →
    let target := Config.jumpTarget s.inputs s.pc (s.reg b) sh true
    ∃ t, exec (.jump b sh inv k true) s = .next t ∧ t.pc = target ∧
      t.sp = Config.callSp s.inputs s.pc s.sp target ∧
      t.pending = (Config.callSave s.inputs s.pc s.sp target).map DriverAction.perform ++ s.pending ∧
      SameRegs s t ∧ SameFlags s t ∧ SameMemory s t ∧ t.inputs = s.inputs ∧ t.reply = s.reply

/-! ### StackRead and StackWrite -/

/-- 42_decode_jump_stack.md under the driver's uninterpreted formulas (log 14, 21 to 23): SREAD and SWRITE
complete and advance; each either writes its register from memory and stores nothing, or stores its register
and writes none; the stack pointer is the driver's next one. That this and the address are formed from the
values before the access is the model's choice (log 21). -/
def Obligations.StackAccessResult : Prop :=
  ∀ (k : StackKind) (r b : BitVec 2) (f c : BitVec 3) (v : BitVec 2) (s : State), ∃ t,
    let i : Instr := match k with | .stackRead => .sread r b f c v | .stackWrite => .swrite r b f c v
    exec i s = .next t ∧
    SameFlags s t ∧ SamePorts s t ∧ t.pc = Config.nextPc i s.inputs s.pc ∧
    t.sp = Config.stackNextSp k s.inputs s.sp (s.reg b) (Config.stackShift k f) (spDelta c v) ∧
    let ea := Config.stackAddress k s.inputs s.sp (s.reg b) (Config.stackShift k f) (spDelta c v)
    if Config.stackWritesRegister k then
      SameMemory s t ∧ SameRegsBut r s t ∧ t.reg 0 = 0 ∧
      (r ≠ 0 → match Config.stackWidth k with
        | .w8 => lowByte (t.reg r) = s.memRead8 ea
        | .w16 => t.reg r = s.memRead16 (Config.stackOrder k) ea)
    else
      SameRegs s t ∧
      match Config.stackWidth k with
      | .w8 =>
        t.memRead8 ea = (if Config.stackStoresHighByte k then highByte (s.reg r)
          else lowByte (s.reg r)) ∧
        ∀ x, x ≠ ea → t.memRead8 x = s.memRead8 x
      | .w16 => t.memRead16 (Config.stackOrder k) ea = s.reg r ∧ SameMemoryBut ea (ea + 1) s t

/-! ### MoreSpecific and the invalid families -/

/-- 45_execute_contract.md, MoreSpecific (decision D23, log 27): refused for every value of its secondary
opcode. -/
def Obligations.MoreSpecificIsRefused : Prop :=
  ∀ (x : BitVec 12) (s : State), exec (.more x) s = .refused (.unspecifiedSecondary x)

/-- 45_execute_contract.md, InvalidOpcode at execution (decision D16, log 28, log 30): the run is faulted with
the word's family. -/
def Obligations.InvalidWordFaults : Prop :=
  ∀ s : State,
    exec .invalid5 s = .fault (.invalidOpcode 5) ∧ exec .invalid8 s = .fault (.invalidOpcode 8) ∧
    exec .invalid9 s = .fault (.invalidOpcode 9) ∧ exec .invalidA s = .fault (.invalidOpcode 10) ∧
    exec .invalidB s = .fault (.invalidOpcode 11) ∧ exec .invalidC s = .fault (.invalidOpcode 12) ∧
    exec .invalidD s = .fault (.invalidOpcode 13) ∧ exec .invalidE s = .fault (.invalidOpcode 14)
end

