-- ==== Sys2Proof/Laws/State.lean ====
section
/-! SUPPORT. One lemma per field per update, so that no proof unfolds a record update. -/

namespace Sys2Proof.Machine

open Sys2Proof

/-! ### Memory writes touch memory only -/

@[simp] theorem State.memWrite8_x1 (s : State) (a : Word) (v : Byte) : (s.memWrite8 a v).x1 = s.x1 := rfl
@[simp] theorem State.memWrite8_x2 (s : State) (a : Word) (v : Byte) : (s.memWrite8 a v).x2 = s.x2 := rfl
@[simp] theorem State.memWrite8_x3 (s : State) (a : Word) (v : Byte) : (s.memWrite8 a v).x3 = s.x3 := rfl
@[simp] theorem State.memWrite8_f8 (s : State) (a : Word) (v : Byte) : (s.memWrite8 a v).f8 = s.f8 := rfl
@[simp] theorem State.memWrite8_f16 (s : State) (a : Word) (v : Byte) : (s.memWrite8 a v).f16 = s.f16 := rfl
@[simp] theorem State.memWrite8_mem (s : State) (a : Word) (v : Byte) :
    (s.memWrite8 a v).mem = s.mem.write a.toNat v := rfl
@[simp] theorem State.memWrite8_pc (s : State) (a : Word) (v : Byte) : (s.memWrite8 a v).pc = s.pc := rfl
@[simp] theorem State.memWrite8_sp (s : State) (a : Word) (v : Byte) : (s.memWrite8 a v).sp = s.sp := rfl
@[simp] theorem State.memWrite8_inputs (s : State) (a : Word) (v : Byte) :
    (s.memWrite8 a v).inputs = s.inputs := rfl
@[simp] theorem State.memWrite8_pending (s : State) (a : Word) (v : Byte) :
    (s.memWrite8 a v).pending = s.pending := rfl
@[simp] theorem State.memWrite8_reply (s : State) (a : Word) (v : Byte) :
    (s.memWrite8 a v).reply = s.reply := rfl

@[simp] theorem State.memWrite16_x1 (s : State) (o : ByteOrder) (a v : Word) :
    (s.memWrite16 o a v).x1 = s.x1 := by cases o <;> rfl
@[simp] theorem State.memWrite16_x2 (s : State) (o : ByteOrder) (a v : Word) :
    (s.memWrite16 o a v).x2 = s.x2 := by cases o <;> rfl
@[simp] theorem State.memWrite16_x3 (s : State) (o : ByteOrder) (a v : Word) :
    (s.memWrite16 o a v).x3 = s.x3 := by cases o <;> rfl
@[simp] theorem State.memWrite16_f8 (s : State) (o : ByteOrder) (a v : Word) :
    (s.memWrite16 o a v).f8 = s.f8 := by cases o <;> rfl
@[simp] theorem State.memWrite16_f16 (s : State) (o : ByteOrder) (a v : Word) :
    (s.memWrite16 o a v).f16 = s.f16 := by cases o <;> rfl
@[simp] theorem State.memWrite16_pc (s : State) (o : ByteOrder) (a v : Word) :
    (s.memWrite16 o a v).pc = s.pc := by cases o <;> rfl
@[simp] theorem State.memWrite16_sp (s : State) (o : ByteOrder) (a v : Word) :
    (s.memWrite16 o a v).sp = s.sp := by cases o <;> rfl
@[simp] theorem State.memWrite16_inputs (s : State) (o : ByteOrder) (a v : Word) :
    (s.memWrite16 o a v).inputs = s.inputs := by cases o <;> rfl
@[simp] theorem State.memWrite16_pending (s : State) (o : ByteOrder) (a v : Word) :
    (s.memWrite16 o a v).pending = s.pending := by cases o <;> rfl
@[simp] theorem State.memWrite16_reply (s : State) (o : ByteOrder) (a v : Word) :
    (s.memWrite16 o a v).reply = s.reply := by cases o <;> rfl

/-! ### A register write touches the registers only -/

@[simp] theorem State.setReg_f8 (s : State) (i : BitVec 2) (v : Word) : (s.setReg i v).f8 = s.f8 := by
  unfold State.setReg; split_ifs <;> rfl
@[simp] theorem State.setReg_f16 (s : State) (i : BitVec 2) (v : Word) : (s.setReg i v).f16 = s.f16 := by
  unfold State.setReg; split_ifs <;> rfl
@[simp] theorem State.setReg_mem (s : State) (i : BitVec 2) (v : Word) : (s.setReg i v).mem = s.mem := by
  unfold State.setReg; split_ifs <;> rfl
@[simp] theorem State.setReg_pc (s : State) (i : BitVec 2) (v : Word) : (s.setReg i v).pc = s.pc := by
  unfold State.setReg; split_ifs <;> rfl
@[simp] theorem State.setReg_sp (s : State) (i : BitVec 2) (v : Word) : (s.setReg i v).sp = s.sp := by
  unfold State.setReg; split_ifs <;> rfl
@[simp] theorem State.setReg_inputs (s : State) (i : BitVec 2) (v : Word) :
    (s.setReg i v).inputs = s.inputs := by unfold State.setReg; split_ifs <;> rfl
@[simp] theorem State.setReg_pending (s : State) (i : BitVec 2) (v : Word) :
    (s.setReg i v).pending = s.pending := by unfold State.setReg; split_ifs <;> rfl
@[simp] theorem State.setReg_reply (s : State) (i : BitVec 2) (v : Word) :
    (s.setReg i v).reply = s.reply := by unfold State.setReg; split_ifs <;> rfl

/-! ### A flag slot's update touches that slot only -/

@[simp] theorem State.setSlot_x1 (s : State) (w : Width) (f : Flags) : (s.setSlot w f).x1 = s.x1 := by
  cases w <;> rfl
@[simp] theorem State.setSlot_x2 (s : State) (w : Width) (f : Flags) : (s.setSlot w f).x2 = s.x2 := by
  cases w <;> rfl
@[simp] theorem State.setSlot_x3 (s : State) (w : Width) (f : Flags) : (s.setSlot w f).x3 = s.x3 := by
  cases w <;> rfl
@[simp] theorem State.setSlot_f8 (s : State) (f : Flags) : (s.setSlot .w8 f).f8 = f := rfl
@[simp] theorem State.setSlot_f8_other (s : State) (f : Flags) : (s.setSlot .w16 f).f8 = s.f8 := rfl
@[simp] theorem State.setSlot_f16 (s : State) (f : Flags) : (s.setSlot .w16 f).f16 = f := rfl
@[simp] theorem State.setSlot_f16_other (s : State) (f : Flags) : (s.setSlot .w8 f).f16 = s.f16 := rfl
@[simp] theorem State.setSlot_mem (s : State) (w : Width) (f : Flags) : (s.setSlot w f).mem = s.mem := by
  cases w <;> rfl
@[simp] theorem State.setSlot_pc (s : State) (w : Width) (f : Flags) : (s.setSlot w f).pc = s.pc := by
  cases w <;> rfl
@[simp] theorem State.setSlot_sp (s : State) (w : Width) (f : Flags) : (s.setSlot w f).sp = s.sp := by
  cases w <;> rfl
@[simp] theorem State.setSlot_inputs (s : State) (w : Width) (f : Flags) :
    (s.setSlot w f).inputs = s.inputs := by cases w <;> rfl
@[simp] theorem State.setSlot_pending (s : State) (w : Width) (f : Flags) :
    (s.setSlot w f).pending = s.pending := by cases w <;> rfl
@[simp] theorem State.setSlot_reply (s : State) (w : Width) (f : Flags) :
    (s.setSlot w f).reply = s.reply := by cases w <;> rfl

@[simp] theorem State.flagsWrite_eq (s : State) (w : Width) (c z sg : Bool) :
    s.flagsWrite w c z sg = s.setSlot w ⟨c, z, sg⟩ := rfl

@[simp] theorem State.slot_w8 (s : State) : s.slot .w8 = s.f8 := rfl
@[simp] theorem State.slot_w16 (s : State) : s.slot .w16 = s.f16 := rfl

/-! ### The advance touches the program counter only -/

@[simp] theorem State.advance_x1 (s : State) (i : Instr) : (s.advance i).x1 = s.x1 := rfl
@[simp] theorem State.advance_x2 (s : State) (i : Instr) : (s.advance i).x2 = s.x2 := rfl
@[simp] theorem State.advance_x3 (s : State) (i : Instr) : (s.advance i).x3 = s.x3 := rfl
@[simp] theorem State.advance_f8 (s : State) (i : Instr) : (s.advance i).f8 = s.f8 := rfl
@[simp] theorem State.advance_f16 (s : State) (i : Instr) : (s.advance i).f16 = s.f16 := rfl
@[simp] theorem State.advance_mem (s : State) (i : Instr) : (s.advance i).mem = s.mem := rfl
@[simp] theorem State.advance_pc (s : State) (i : Instr) :
    (s.advance i).pc = Config.nextPc i s.inputs s.pc := rfl
@[simp] theorem State.advance_sp (s : State) (i : Instr) : (s.advance i).sp = s.sp := rfl
@[simp] theorem State.advance_inputs (s : State) (i : Instr) : (s.advance i).inputs = s.inputs := rfl
@[simp] theorem State.advance_pending (s : State) (i : Instr) : (s.advance i).pending = s.pending := rfl
@[simp] theorem State.advance_reply (s : State) (i : Instr) : (s.advance i).reply = s.reply := rfl

/-! ### The driver's program counter and stack pointer -/

@[simp] theorem State.setPc_x1 (s : State) (v : Word) : (s.setPc v).x1 = s.x1 := rfl
@[simp] theorem State.setPc_x2 (s : State) (v : Word) : (s.setPc v).x2 = s.x2 := rfl
@[simp] theorem State.setPc_x3 (s : State) (v : Word) : (s.setPc v).x3 = s.x3 := rfl
@[simp] theorem State.setPc_f8 (s : State) (v : Word) : (s.setPc v).f8 = s.f8 := rfl
@[simp] theorem State.setPc_f16 (s : State) (v : Word) : (s.setPc v).f16 = s.f16 := rfl
@[simp] theorem State.setPc_mem (s : State) (v : Word) : (s.setPc v).mem = s.mem := rfl
@[simp] theorem State.setPc_pc (s : State) (v : Word) : (s.setPc v).pc = v := rfl
@[simp] theorem State.setPc_sp (s : State) (v : Word) : (s.setPc v).sp = s.sp := rfl
@[simp] theorem State.setPc_inputs (s : State) (v : Word) : (s.setPc v).inputs = s.inputs := rfl
@[simp] theorem State.setPc_pending (s : State) (v : Word) : (s.setPc v).pending = s.pending := rfl
@[simp] theorem State.setPc_reply (s : State) (v : Word) : (s.setPc v).reply = s.reply := rfl
@[simp] theorem State.setSp_x1 (s : State) (v : Word) : (s.setSp v).x1 = s.x1 := rfl
@[simp] theorem State.setSp_x2 (s : State) (v : Word) : (s.setSp v).x2 = s.x2 := rfl
@[simp] theorem State.setSp_x3 (s : State) (v : Word) : (s.setSp v).x3 = s.x3 := rfl
@[simp] theorem State.setSp_f8 (s : State) (v : Word) : (s.setSp v).f8 = s.f8 := rfl
@[simp] theorem State.setSp_f16 (s : State) (v : Word) : (s.setSp v).f16 = s.f16 := rfl
@[simp] theorem State.setSp_mem (s : State) (v : Word) : (s.setSp v).mem = s.mem := rfl
@[simp] theorem State.setSp_pc (s : State) (v : Word) : (s.setSp v).pc = s.pc := rfl
@[simp] theorem State.setSp_sp (s : State) (v : Word) : (s.setSp v).sp = v := rfl
@[simp] theorem State.setSp_inputs (s : State) (v : Word) : (s.setSp v).inputs = s.inputs := rfl
@[simp] theorem State.setSp_pending (s : State) (v : Word) : (s.setSp v).pending = s.pending := rfl
@[simp] theorem State.setSp_reply (s : State) (v : Word) : (s.setSp v).reply = s.reply := rfl

/-! ### Operations put before the rest touch what is pending only -/

@[simp] theorem State.callNext_x1 (s : State) (ops : List BlockOp) :
    (s.callNext ops).x1 = s.x1 := rfl
@[simp] theorem State.callNext_x2 (s : State) (ops : List BlockOp) :
    (s.callNext ops).x2 = s.x2 := rfl
@[simp] theorem State.callNext_x3 (s : State) (ops : List BlockOp) :
    (s.callNext ops).x3 = s.x3 := rfl
@[simp] theorem State.callNext_f8 (s : State) (ops : List BlockOp) :
    (s.callNext ops).f8 = s.f8 := rfl
@[simp] theorem State.callNext_f16 (s : State) (ops : List BlockOp) :
    (s.callNext ops).f16 = s.f16 := rfl
@[simp] theorem State.callNext_mem (s : State) (ops : List BlockOp) :
    (s.callNext ops).mem = s.mem := rfl
@[simp] theorem State.callNext_pc (s : State) (ops : List BlockOp) :
    (s.callNext ops).pc = s.pc := rfl
@[simp] theorem State.callNext_sp (s : State) (ops : List BlockOp) :
    (s.callNext ops).sp = s.sp := rfl
@[simp] theorem State.callNext_inputs (s : State) (ops : List BlockOp) :
    (s.callNext ops).inputs = s.inputs := rfl
@[simp] theorem State.callNext_pending (s : State) (ops : List BlockOp) :
    (s.callNext ops).pending = ops.map DriverAction.perform ++ s.pending := rfl
@[simp] theorem State.callNext_reply (s : State) (ops : List BlockOp) :
    (s.callNext ops).reply = s.reply := rfl

/-! ### Accepting a presented word touches the driver's side only -/

@[simp] theorem State.accept_x1 (s : State) (r : List DriverAction) (n : Inputs) :
    (s.accept r n).x1 = s.x1 := rfl
@[simp] theorem State.accept_x2 (s : State) (r : List DriverAction) (n : Inputs) :
    (s.accept r n).x2 = s.x2 := rfl
@[simp] theorem State.accept_x3 (s : State) (r : List DriverAction) (n : Inputs) :
    (s.accept r n).x3 = s.x3 := rfl
@[simp] theorem State.accept_f8 (s : State) (r : List DriverAction) (n : Inputs) :
    (s.accept r n).f8 = s.f8 := rfl
@[simp] theorem State.accept_f16 (s : State) (r : List DriverAction) (n : Inputs) :
    (s.accept r n).f16 = s.f16 := rfl
@[simp] theorem State.accept_mem (s : State) (r : List DriverAction) (n : Inputs) :
    (s.accept r n).mem = s.mem := rfl
@[simp] theorem State.accept_pc (s : State) (r : List DriverAction) (n : Inputs) :
    (s.accept r n).pc = s.pc := rfl
@[simp] theorem State.accept_sp (s : State) (r : List DriverAction) (n : Inputs) :
    (s.accept r n).sp = s.sp := rfl
@[simp] theorem State.accept_inputs (s : State) (r : List DriverAction) (n : Inputs) :
    (s.accept r n).inputs = n := rfl
@[simp] theorem State.accept_pending (s : State) (r : List DriverAction) (n : Inputs) :
    (s.accept r n).pending = r := rfl
@[simp] theorem State.accept_reply (s : State) (r : List DriverAction) (n : Inputs) :
    (s.accept r n).reply = s.reply := rfl

end Sys2Proof.Machine
end

