-- ==== Sys2Proof/Laws/Memory.lean ====
section
/-! SUPPORT. Memory: reads after writes, and every memory operation keeps the canonical form. -/

namespace Sys2Proof.Machine

open Sys2Proof

theorem Memory.read_without_same (m : Memory) (a : Nat) : (m.without a).read a = unlistedByte := by
  induction m with
  | nil => rfl
  | cons c m ih =>
    by_cases h : c.1 = a
    · simpa [Memory.without, List.filter, h] using ih
    · simpa [Memory.without, List.filter, Memory.read, h] using ih

theorem Memory.read_without_ne (m : Memory) {a b : Nat} (h : b ≠ a) : (m.without a).read b = m.read b := by
  induction m with
  | nil => rfl
  | cons c m ih =>
    by_cases hc : c.1 = a
    · have : c.1 ≠ b := fun e => h (e.symm.trans hc)
      simpa [Memory.without, List.filter, Memory.read, hc, Ne.symm h] using ih
    · simp only [Memory.without, List.filter, hc, ne_eq, not_false_eq_true, decide_true, Memory.read]
      split
      · rfl
      · exact ih

theorem Memory.read_place_ne (a : Nat) (v : Byte) (m : Memory) {b : Nat} (h : b ≠ a) :
    (Memory.place a v m).read b = m.read b := by
  induction m with
  | nil => simp [Memory.place, Memory.read, Ne.symm h]
  | cons c m ih =>
    simp only [Memory.place]
    split
    · simp [Memory.read, Ne.symm h]
    · simp only [Memory.read]; split
      · rfl
      · exact ih

theorem Memory.read_place_same (a : Nat) (v : Byte) (m : Memory) (h : ∀ c ∈ m, c.1 ≠ a) :
    (Memory.place a v m).read a = v := by
  induction m with
  | nil => simp [Memory.place, Memory.read]
  | cons c m ih =>
    simp only [Memory.place]
    split
    · simp [Memory.read]
    · simpa [Memory.read, h c (by simp)] using ih fun d hd => h d (by simp [hd])

theorem Memory.without_ne (m : Memory) (a : Nat) : ∀ c ∈ m.without a, c.1 ≠ a := by
  simp [Memory.without]

/-- A read after a write to the same address gives the value written. -/
@[simp] theorem Memory.read_write_same (m : Memory) (a : Nat) (v : Byte) : (m.write a v).read a = v := by
  unfold Memory.write
  split
  · rename_i h; rw [h]; exact m.read_without_same a
  · exact Memory.read_place_same a v _ (m.without_ne a)

/-- A write leaves every other address alone. -/
theorem Memory.read_write_ne (m : Memory) {a b : Nat} (v : Byte) (h : b ≠ a) :
    (m.write a v).read b = m.read b := by
  unfold Memory.write
  split
  · exact m.read_without_ne h
  · rw [Memory.read_place_ne _ _ _ h, m.read_without_ne h]

/-! ### Canonical form -/

/-- Whether an address may follow an optional lower bound. -/
def aboveBound (lo : Option Nat) (a : Nat) : Prop := ∀ l, lo = some l → l < a

theorem Memory.wfAbove_cons (lo : Option Nat) (a : Nat) (v : Byte) (m : Memory) :
    Memory.wfAbove lo ((a, v) :: m) = true ↔
      aboveBound lo a ∧ a < 65536 ∧ v ≠ unlistedByte ∧ m.wfAbove (some a) = true := by
  cases lo <;> simp [Memory.wfAbove, aboveBound, and_assoc]

theorem Memory.wfAbove_weaken {lo : Option Nat} {l : Nat} (m : Memory) (h : aboveBound lo l)
    (hm : m.wfAbove (some l) = true) : m.wfAbove lo = true := by
  cases m with
  | nil => rfl
  | cons c m =>
    obtain ⟨a, v⟩ := c
    rw [Memory.wfAbove_cons] at hm ⊢
    exact ⟨fun k hk => (h k hk).trans (hm.1 l rfl), hm.2⟩

theorem Memory.wfAbove_without (m : Memory) (a : Nat) (lo : Option Nat) (h : m.wfAbove lo = true) :
    (m.without a).wfAbove lo = true := by
  induction m generalizing lo with
  | nil => rfl
  | cons c m ih =>
    obtain ⟨b, v⟩ := c
    rw [Memory.wfAbove_cons] at h
    by_cases hb : b = a
    · have := ih (some b) h.2.2.2
      simpa [Memory.without, List.filter, hb] using
        Memory.wfAbove_weaken (Memory.without m a) h.1 this
    · have : Memory.without ((b, v) :: m) a = (b, v) :: Memory.without m a := by
        simp [Memory.without, List.filter, hb]
      rw [this, Memory.wfAbove_cons]
      exact ⟨h.1, h.2.1, h.2.2.1, ih _ h.2.2.2⟩

theorem Memory.wfAbove_place (a : Nat) (v : Byte) (m : Memory) (lo : Option Nat)
    (ha : a < 65536) (hv : v ≠ unlistedByte) (hlo : aboveBound lo a) (hne : ∀ c ∈ m, c.1 ≠ a)
    (h : m.wfAbove lo = true) : (Memory.place a v m).wfAbove lo = true := by
  induction m generalizing lo with
  | nil => exact (Memory.wfAbove_cons ..).2 ⟨hlo, ha, hv, rfl⟩
  | cons c m ih =>
    obtain ⟨b, u⟩ := c
    have h' := (Memory.wfAbove_cons ..).1 h
    have hba : b ≠ a := hne (b, u) (by simp)
    simp only [Memory.place]
    split
    · rename_i hab
      refine (Memory.wfAbove_cons ..).2 ⟨hlo, ha, hv, (Memory.wfAbove_cons ..).2 ⟨?_, h'.2⟩⟩
      rintro l ⟨⟩; exact hab
    · rename_i hab
      refine (Memory.wfAbove_cons ..).2 ⟨h'.1, h'.2.1, h'.2.2.1, ih _ ?_ ?_ h'.2.2.2⟩
      · rintro l ⟨⟩; omega
      · exact fun d hd => hne d (by simp [hd])

/-- A write at an address of the address space keeps the canonical form. -/
theorem Memory.wf_write (m : Memory) (a : Nat) (v : Byte) (ha : a < 65536) (h : m.wf = true) :
    (m.write a v).wf = true := by
  unfold Memory.write
  split
  · exact m.wfAbove_without a none h
  · exact Memory.wfAbove_place a v _ none ha ‹_› (by simp [aboveBound]) (m.without_ne a)
      (m.wfAbove_without a none h)

/-- The memory of the reset state has the canonical form. -/
theorem Memory.wf_reset : State.reset.mem.wf = true := rfl

/-! ### The state's accesses -/

@[simp] theorem State.memRead8_memWrite8_same (s : State) (a : Word) (v : Byte) :
    (s.memWrite8 a v).memRead8 a = v := by simp [State.memRead8]

theorem State.memRead8_memWrite8_ne (s : State) {a b : Word} (v : Byte) (h : b ≠ a) :
    (s.memWrite8 a v).memRead8 b = s.memRead8 b := by
  simpa [State.memRead8] using
    Memory.read_write_ne s.mem v fun e => h (BitVec.eq_of_toNat_eq e)

/-- The two bytes of a 16-bit access are at different addresses (R44). -/
theorem add_one_ne (a : Word) : a + 1 ≠ a := by
  intro h
  have := congrArg (fun x => x - a) h
  simp at this

theorem State.memRead8_memWrite16_ne (s : State) (o : ByteOrder) {a b : Word} (v : Word)
    (h : b ≠ a) (h' : b ≠ a + 1) : (s.memWrite16 o a v).memRead8 b = s.memRead8 b := by
  cases o <;>
    simp only [State.memWrite16, State.memRead8_memWrite8_ne _ _ h', State.memRead8_memWrite8_ne _ _ h]

theorem State.memRead8_memWrite16_first (s : State) (o : ByteOrder) (a v : Word) :
    (s.memWrite16 o a v).memRead8 a = (match o with | .little => lowByte v | .big => highByte v) := by
  cases o <;>
    simp only [State.memWrite16, State.memRead8_memWrite8_ne _ _ (add_one_ne a).symm,
      State.memRead8_memWrite8_same]

theorem State.memRead8_memWrite16_second (s : State) (o : ByteOrder) (a v : Word) :
    (s.memWrite16 o a v).memRead8 (a + 1) =
      (match o with | .little => highByte v | .big => lowByte v) := by
  cases o <;> simp only [State.memWrite16, State.memRead8_memWrite8_same]

theorem State.wf_memWrite8 (s : State) (a : Word) (v : Byte) (h : s.mem.wf = true) :
    (s.memWrite8 a v).mem.wf = true :=
  Memory.wf_write s.mem a.toNat v a.isLt h

theorem State.wf_memWrite16 (s : State) (o : ByteOrder) (a v : Word) (h : s.mem.wf = true) :
    (s.memWrite16 o a v).mem.wf = true := by
  cases o <;> exact State.wf_memWrite8 _ _ _ (State.wf_memWrite8 _ _ _ h)

/-- A word is put together again from its two bytes. -/
@[simp] theorem wordOf_high_low (v : Word) : wordOf (highByte v) (lowByte v) = v := by
  apply BitVec.eq_of_getLsbD_eq
  intro i hi
  unfold wordOf highByte lowByte
  rw [BitVec.getLsbD_append, BitVec.getLsbD_extractLsb', BitVec.getLsbD_extractLsb']
  by_cases h : i < 8
  · simp [h]
  · simp [h, show 8 + (i - 8) = i by omega, show i - 8 < 8 by omega]

@[simp] theorem lowByte_wordOf (h l : Byte) : lowByte (wordOf h l) = l := by
  apply BitVec.eq_of_getLsbD_eq
  intro i hi
  unfold wordOf lowByte
  rw [BitVec.getLsbD_extractLsb', BitVec.getLsbD_append]
  simp [hi]

@[simp] theorem highByte_wordOf (h l : Byte) : highByte (wordOf h l) = h := by
  apply BitVec.eq_of_getLsbD_eq
  intro i hi
  unfold wordOf highByte
  rw [BitVec.getLsbD_extractLsb', BitVec.getLsbD_append]
  simp [hi]

/-- A 16-bit read of a 16-bit write in the same order at the same address, wrapping included (R45). -/
@[simp] theorem State.memRead16_memWrite16_same (s : State) (o : ByteOrder) (a v : Word) :
    (s.memWrite16 o a v).memRead16 o a = v := by
  cases o <;>
    simp only [State.memRead16, State.memRead8_memWrite16_first, State.memRead8_memWrite16_second,
      wordOf_high_low]

end Sys2Proof.Machine
end

