-- ==== Sys2Proof/Laws/Regs.lean ====
section
/-! SUPPORT. The register file and the flags register: reads after writes, and that the operations on the
one leave the other alone. -/

namespace Sys2Proof.Machine

open Sys2Proof

/-- A 2-bit index is one of four. -/
theorem index_cases (i : BitVec 2) : i = 0 ∨ i = 1 ∨ i = 2 ∨ i = 3 := by
  revert i; decide

@[simp] theorem State.reg_zero (s : State) : s.reg 0#2 = 0#16 := rfl

/-- Reads depend on the three stored slots only. -/
theorem State.reg_congr {s t : State} (h1 : t.x1 = s.x1) (h2 : t.x2 = s.x2) (h3 : t.x3 = s.x3)
    (i : BitVec 2) : t.reg i = s.reg i := by simp [State.reg, h1, h2, h3]

@[simp] theorem State.setReg_zero (s : State) (v : Word) : s.setReg 0#2 v = s := rfl

/-- A register reads what was written to it, but slot 0 (R11 to R13). -/
theorem State.reg_setReg_same (s : State) {i : BitVec 2} (v : Word) (h : i ≠ 0) :
    (s.setReg i v).reg i = v := by
  rcases index_cases i with rfl | rfl | rfl | rfl
  · exact absurd rfl h
  all_goals rfl

/-- A register write leaves the other slots alone (R13). -/
theorem State.reg_setReg_ne (s : State) {i j : BitVec 2} (v : Word) (h : j ≠ i) :
    (s.setReg i v).reg j = s.reg j := by
  rcases index_cases i with rfl | rfl | rfl | rfl <;> rcases index_cases j with rfl | rfl | rfl | rfl <;>
    first | rfl | exact absurd rfl h

/-- The register file after a write, at every slot. -/
theorem State.reg_setReg (s : State) (i j : BitVec 2) (v : Word) :
    (s.setReg i v).reg j = if j = i ∧ i ≠ 0 then v else s.reg j := by
  by_cases h : j = i
  · subst h
    by_cases h0 : j = 0
    · subst h0; rfl
    · rw [State.reg_setReg_same s v h0, if_pos ⟨rfl, h0⟩]
  · rw [State.reg_setReg_ne s v h, if_neg fun e => h e.1]

@[simp] theorem State.reg_memWrite8 (s : State) (a : Word) (v : Byte) (i : BitVec 2) :
    (s.memWrite8 a v).reg i = s.reg i := rfl

@[simp] theorem State.reg_memWrite16 (s : State) (o : ByteOrder) (a v : Word) (i : BitVec 2) :
    (s.memWrite16 o a v).reg i = s.reg i := by cases o <;> rfl

@[simp] theorem State.reg_setSlot (s : State) (w : Width) (f : Flags) (i : BitVec 2) :
    (s.setSlot w f).reg i = s.reg i := by cases w <;> rfl

@[simp] theorem State.reg_advance (s : State) (n : Instr) (i : BitVec 2) :
    (s.advance n).reg i = s.reg i := rfl

@[simp] theorem State.reg_accept (s : State) (r : List DriverAction) (n : Inputs) (i : BitVec 2) :
    (s.accept r n).reg i = s.reg i := rfl

@[simp] theorem State.memRead8_setReg (s : State) (i : BitVec 2) (v a : Word) :
    (s.setReg i v).memRead8 a = s.memRead8 a := by simp [State.memRead8]

@[simp] theorem State.memRead8_setSlot (s : State) (w : Width) (f : Flags) (a : Word) :
    (s.setSlot w f).memRead8 a = s.memRead8 a := by simp [State.memRead8]

@[simp] theorem State.memRead8_advance (s : State) (n : Instr) (a : Word) :
    (s.advance n).memRead8 a = s.memRead8 a := rfl

@[simp] theorem State.memRead8_accept (s : State) (r : List DriverAction) (n : Inputs) (a : Word) :
    (s.accept r n).memRead8 a = s.memRead8 a := rfl

@[simp] theorem State.reg_callNext (s : State) (ops : List BlockOp) (i : BitVec 2) :
    (s.callNext ops).reg i = s.reg i := rfl

@[simp] theorem State.memRead8_callNext (s : State) (ops : List BlockOp) (a : Word) :
    (s.callNext ops).memRead8 a = s.memRead8 a := rfl

@[simp] theorem State.reg_setPc (s : State) (v : Word) (i : BitVec 2) :
    (s.setPc v).reg i = s.reg i := rfl

@[simp] theorem State.memRead8_setPc (s : State) (v a : Word) :
    (s.setPc v).memRead8 a = s.memRead8 a := rfl

@[simp] theorem State.reg_setSp (s : State) (v : Word) (i : BitVec 2) :
    (s.setSp v).reg i = s.reg i := rfl

@[simp] theorem State.memRead8_setSp (s : State) (v a : Word) :
    (s.setSp v).memRead8 a = s.memRead8 a := rfl

/-- A 16-bit read depends on the bytes only. -/
theorem State.memRead16_congr {s t : State} (h : ∀ a, t.memRead8 a = s.memRead8 a) (o : ByteOrder)
    (a : Word) : t.memRead16 o a = s.memRead16 o a := by cases o <;> simp [State.memRead16, h]

@[simp] theorem Flags.get_zero (f : Flags) : f.get 0#2 = true := rfl

@[simp] theorem Flags.set_zero (f : Flags) (v : Bool) : f.set 0#2 v = f := rfl

/-- The flags of one width after a set, at every index (R20). -/
theorem Flags.get_set (f : Flags) (i j : BitVec 2) (v : Bool) :
    (f.set i v).get j = if j = i ∧ i ≠ 0 then v else f.get j := by
  rcases index_cases i with rfl | rfl | rfl | rfl <;> rcases index_cases j with rfl | rfl | rfl | rfl <;> rfl

/-- The slots after one is replaced (R21). -/
theorem State.slot_setSlot (s : State) (w u : Width) (f : Flags) :
    (s.setSlot w f).slot u = if u = w then f else s.slot u := by cases w <;> cases u <;> rfl

end Sys2Proof.Machine
end

