-- ==== Sys2Proof/Laws/Alu.lean ====
section
/-! SUPPORT. The ripple chain: what its result bits and carries are (44_alu_combine.md R123). -/

namespace Sys2Proof.Machine

open Sys2Proof

/-- The carry into a position (R123 steps 2 and 3). -/
def carryAt {n : Nat} (st : AluSettings) (a1 b1 : BitVec n) : Nat → Bool
  | 0 => st.carryIn
  | k + 1 => cellCarry st (a1.getLsbD k) (b1.getLsbD k) (carryAt st a1 b1 k)

theorem chain_carry {n : Nat} (st : AluSettings) (a1 b1 : BitVec n) (k : Nat) :
    (chain st a1 b1 k).carry = carryAt st a1 b1 k := by
  induction k with
  | zero => rfl
  | succ k ih => simp [chain, chainCell, carryAt, ih]

/-- After k positions the result has its sum bits at positions below k and 0 above. -/
theorem chain_result {n : Nat} (st : AluSettings) (a1 b1 : BitVec n) (k i : Nat) (hi : i < n) :
    (chain st a1 b1 k).result.getLsbD i =
      (decide (i < k) && cellSum st (a1.getLsbD i) (b1.getLsbD i) (carryAt st a1 b1 i)) := by
  induction k with
  | zero => simp [chain]
  | succ k ih =>
    simp only [chain, chainCell, BitVec.getLsbD_or, ih, BitVec.getLsbD_shiftLeft, chain_carry,
      BitVec.getLsbD_setWidth, BitVec.getLsbD_ofBool]
    rcases lt_trichotomy i k with h | h | h
    · simp [h, Nat.lt_succ_of_lt h]
    · subst h; simp [hi, Nat.zero_lt_of_lt hi]
    · simp [show ¬ i < k by omega, show ¬ i < k + 1 by omega, show i - k ≠ 0 by omega]

/-- Every result bit of `combine_N` is the cell's sum bit with the carry into its position. -/
theorem combine_result {n : Nat} (st : AluSettings) (a b : BitVec n) (i : Nat) (hi : i < n) :
    (combine a b st).result.getLsbD i =
      cellSum st ((invertIf st.invertA a).getLsbD i) ((invertIf st.invertB b).getLsbD i)
        (carryAt st (invertIf st.invertA a) (invertIf st.invertB b) i) := by
  simp only [combine, chain_result _ _ _ _ _ hi, hi, decide_true, Bool.true_and]

/-- The carry-out of `combine_N` is the carry after position N-1. -/
theorem combine_carry {n : Nat} (st : AluSettings) (a b : BitVec n) :
    (combine a b st).carry = carryAt st (invertIf st.invertA a) (invertIf st.invertB b) n := by
  simp [combine, chain_carry]

theorem combine_zero {n : Nat} (st : AluSettings) (a b : BitVec n) :
    (combine a b st).zero = decide ((combine a b st).result = 0) := rfl

theorem combine_sign {n : Nat} (st : AluSettings) (a b : BitVec n) :
    (combine a b st).sign = (combine a b st).result.getLsbD (n - 1) := rfl

/-- An inverted operand's bit. -/
theorem getLsbD_invertIf {n : Nat} (c : Bool) (v : BitVec n) (i : Nat) (hi : i < n) :
    (invertIf c v).getLsbD i = (v.getLsbD i ^^ c) := by
  cases c <;> simp [invertIf, hi]

end Sys2Proof.Machine
end

