-- ==== Sys2Proof/Laws/Decode.lean ====
section
/-! SUPPORT. The decoder's fields as numbers, and which family's reading a word gets. -/

namespace Sys2Proof

/-- A field as the number of its bits (R6). -/
theorem fieldAt_toNat (lo len : Nat) (w : Word) :
    (fieldAt lo len w).toNat = w.toNat / 2 ^ lo % 2 ^ len := by
  simp [fieldAt, BitVec.extractLsb'_toNat, Nat.shiftRight_eq_div_pow]

/-- The family as a number (R62). -/
theorem familyOf_toNat (w : Word) : (familyOf w).toNat = w.toNat / 4096 := by
  have h := w.isLt
  rw [familyOf, fieldAt_toNat]
  omega

/-- A family put before the other twelve bits is the word's family. -/
theorem familyOf_append (f : BitVec 4) (x : BitVec 12) : familyOf (f ++ x) = f := by
  apply BitVec.eq_of_getLsbD_eq
  intro i hi
  unfold familyOf fieldAt
  rw [BitVec.getLsbD_extractLsb', BitVec.getLsbD_append]
  simp [hi]

/-- A word of 16 bits, numbered as the table numbers it, is itself. -/
@[simp] theorem tableWord_toNat (w : Word) : tableWord 16 w.toNat = w := by
  apply BitVec.eq_of_toNat_eq
  have := w.isLt
  simp [tableWord]
  omega

@[simp] theorem sourceModeOf_bits (m : SourceMode) : sourceModeOf (sourceModeBits m) = m := by
  cases m <;> rfl

@[simp] theorem loadModeOf_bits (m : LoadMode) : loadModeOf (loadModeBits m) = m := by
  cases m <;> rfl

@[simp] theorem storeModeOf_bit (m : StoreMode) : storeModeOf (storeModeBit m) = m := by
  cases m <;> rfl

@[simp] theorem settingsFrom_bits (st : AluSettings) : settingsFrom (settingsBits st) = st := by
  obtain ⟨a, b, c, d, e⟩ := st
  revert a b c d e
  decide

/-- Every delta the two fields make is one of the eighteen (R107). -/
theorem spDelta_ok (c : BitVec 3) (v : BitVec 2) : spDeltaOk (spDelta c v) = true := by
  revert c v; decide

end Sys2Proof
end

