-- ==== Sys2Proof/Laws/PerInstr.lean ====
section
/-! SUPPORT. One statement about every instruction as syntax, with one lemma per constructor: its encoding
carries its row's family in bits 15:12, and its tagged value is one the opcode layout can produce. -/

namespace Sys2Proof.Laws.EncodeFamily

open Sys2Proof

/-- The encoding carries the family, and the tagged value is well-formed. -/
def Statement (i : Instr) : Prop := familyOf (encode i) = i.family ∧ i.wellFormed = true

theorem op (a : BitVec 2) (m : SourceMode) (st : AluSettings) (w u : Bool) :
    Statement (.op a m st w u) := by
  refine ⟨?_, by simp [Instr.wellFormed, Instr.decoded, decodeAnswerOk, Decoded.wellFormed,
    destinationOk]⟩
  apply BitVec.eq_of_getLsbD_eq
  intro i hi
  simp only [familyOf, fieldAt, encode, encodeOperation, settingsBits, Instr.family,
    BitVec.getLsbD_extractLsb', BitVec.getLsbD_append, hi]
  interval_cases i <;> simp

theorem cmp (a : BitVec 2) (m : SourceMode) (st : AluSettings) (w u : Bool) :
    Statement (.cmp a m st w u) := by
  refine ⟨?_, by simp [Instr.wellFormed, Instr.decoded, decodeAnswerOk, Decoded.wellFormed,
    destinationOk]⟩
  apply BitVec.eq_of_getLsbD_eq
  intro i hi
  simp only [familyOf, fieldAt, encode, encodeOperation, settingsBits, Instr.family,
    BitVec.getLsbD_extractLsb', BitVec.getLsbD_append, hi]
  interval_cases i <;> simp

theorem load (d b : BitVec 2) (m : LoadMode) (e w : Bool) (sh : BitVec 3) :
    Statement (.load d b m e w sh) := by
  refine ⟨?_, by simpa [Instr.wellFormed, Instr.decoded, decodeAnswerOk, Decoded.wellFormed, shiftOk]
    using sh.isLt⟩
  apply BitVec.eq_of_getLsbD_eq
  intro i hi
  simp only [familyOf, fieldAt, encode, Instr.family, BitVec.getLsbD_extractLsb',
    BitVec.getLsbD_append, hi]
  interval_cases i <;> simp

theorem store (r b : BitVec 2) (m : StoreMode) (e w : Bool) (sh : BitVec 3) :
    Statement (.store r b m e w sh) := by
  refine ⟨?_, by simpa [Instr.wellFormed, Instr.decoded, decodeAnswerOk, Decoded.wellFormed, shiftOk]
    using sh.isLt⟩
  apply BitVec.eq_of_getLsbD_eq
  intro i hi
  simp only [familyOf, fieldAt, encode, Instr.family, BitVec.getLsbD_extractLsb',
    BitVec.getLsbD_append, hi]
  interval_cases i <;> simp

theorem jump (b : BitVec 2) (sh : BitVec 3) (inv : Bool) (k : BitVec 2) (call : Bool) :
    Statement (.jump b sh inv k call) := by
  refine ⟨?_, by simpa [Instr.wellFormed, Instr.decoded, decodeAnswerOk, Decoded.wellFormed, shiftOk]
    using sh.isLt⟩
  apply BitVec.eq_of_getLsbD_eq
  intro i hi
  simp only [familyOf, fieldAt, encode, Instr.family, BitVec.getLsbD_extractLsb',
    BitVec.getLsbD_append, hi]
  interval_cases i <;> simp

theorem sread (r b : BitVec 2) (f c : BitVec 3) (v : BitVec 2) : Statement (.sread r b f c v) := by
  refine ⟨?_, spDelta_ok c v⟩
  apply BitVec.eq_of_getLsbD_eq
  intro i hi
  simp only [familyOf, fieldAt, encode, encodeStack, Instr.family, BitVec.getLsbD_extractLsb',
    BitVec.getLsbD_append, hi]
  interval_cases i <;> simp

theorem swrite (r b : BitVec 2) (f c : BitVec 3) (v : BitVec 2) : Statement (.swrite r b f c v) := by
  refine ⟨?_, spDelta_ok c v⟩
  apply BitVec.eq_of_getLsbD_eq
  intro i hi
  simp only [familyOf, fieldAt, encode, encodeStack, Instr.family, BitVec.getLsbD_extractLsb',
    BitVec.getLsbD_append, hi]
  interval_cases i <;> simp

theorem more (x : BitVec 12) : Statement (.more x) := ⟨familyOf_append 15 x, rfl⟩

theorem invalid5 : Statement .invalid5 := ⟨familyOf_append 5 0, rfl⟩

theorem invalid8 : Statement .invalid8 := ⟨familyOf_append 8 0, rfl⟩

theorem invalid9 : Statement .invalid9 := ⟨familyOf_append 9 0, rfl⟩

theorem invalidA : Statement .invalidA := ⟨familyOf_append 10 0, rfl⟩

theorem invalidB : Statement .invalidB := ⟨familyOf_append 11 0, rfl⟩

theorem invalidC : Statement .invalidC := ⟨familyOf_append 12 0, rfl⟩

theorem invalidD : Statement .invalidD := ⟨familyOf_append 13 0, rfl⟩

theorem invalidE : Statement .invalidE := ⟨familyOf_append 14 0, rfl⟩

end Sys2Proof.Laws.EncodeFamily
end

