-- ==== Sys2Proof/Laws/Step.lean ====
section
/-! SUPPORT. What each shared operation and a step can do, said once. -/

namespace Sys2Proof.Machine

open Sys2Proof

/-! ### The reference execution of an Operation (R142) -/

theorem State.executeOperation_w16 (s : State) (a dest : BitVec 2) (st : AluSettings) (b : Word) :
    s.executeOperation a dest st false b =
      (s.setSlot .w16 ⟨(combine (s.reg a) b st).carry, (combine (s.reg a) b st).zero,
        (combine (s.reg a) b st).sign⟩).setReg dest (combine (s.reg a) b st).result := rfl

theorem State.executeOperation_w8 (s : State) (a dest : BitVec 2) (st : AluSettings) (b : Word) :
    s.executeOperation a dest st true b =
      (s.setSlot .w8 ⟨(combine (lowByte (s.reg a)) (lowByte b) st).carry,
        (combine (lowByte (s.reg a)) (lowByte b) st).zero,
        (combine (lowByte (s.reg a)) (lowByte b) st).sign⟩).setReg dest
          (w8Writeback (s.reg dest) (combine (lowByte (s.reg a)) (lowByte b) st).result) := rfl

/-- An Operation completes exactly when the unit selector is clear (R142, R144). -/
theorem State.runOperation_next {s t : State} {i : Instr} {a dest : BitVec 2} {m : SourceMode}
    {st : AluSettings} {w u : Bool} (h : s.runOperation i a dest m st w u = .next t) :
    u = false ∧ t = (s.executeOperation a dest st w (s.bOperand m w)).advance i := by
  cases u <;> simp_all [State.runOperation]

@[simp] theorem State.executeOperation_mem (s : State) (a dest : BitVec 2) (st : AluSettings)
    (w : Bool) (b : Word) : (s.executeOperation a dest st w b).mem = s.mem := by
  cases w <;> simp [State.executeOperation]

/-! ### Stores -/

theorem State.wf_storeValue (s : State) (a v : Word) (e w : Bool) (h : s.mem.wf = true) :
    (s.storeValue a v e w).mem.wf = true := by
  unfold State.storeValue
  split
  · exact State.wf_memWrite8 _ _ _ h
  · exact State.wf_memWrite16 _ _ _ _ h

theorem State.wf_stackStore (s : State) (k : StackKind) (r : BitVec 2) (a : Word)
    (h : s.mem.wf = true) : (s.stackStore k r a).mem.wf = true := by
  unfold State.stackStore
  split
  · exact State.wf_memWrite8 _ _ _ h
  · exact State.wf_memWrite16 _ _ _ _ h

/-! ### Jump -/

/-- What a Jump can do: advance, go to its target, or enter a subroutine (R146, R147). -/
theorem execJump_cases {s t : State} {b : BitVec 2} {sh : BitVec 3} {inv : Bool} {k : BitVec 2} {call : Bool}
    (h : execJump b sh inv k call s = .next t) :
    (s.jumpTaken k inv = false ∧ t = s.advance (.jump b sh inv k call)) ∨
    (s.jumpTaken k inv = true ∧ call = false ∧ t = s.setPc (s.target b sh call)) ∨
    (s.jumpTaken k inv = true ∧ call = true ∧ t = s.enterSubroutine (s.target b sh call)) := by
  cases h
  cases s.jumpTaken k inv <;> cases call <;> simp

/-! ### Block operations -/

/-- What a block operation can do to the state (R152): nothing, one register write, one flag set, the
ALU's write of one slot, or a memory write. -/
theorem State.callOp_cases {s t : State} {op : BlockOp} {r : Reply} (h : s.callOp op = .ok (r, t)) :
    t = s ∨
    (∃ i v, op = .regWrite i v ∧ i < 4 ∧ t = s.setReg (BitVec.ofNat 2 i) v) ∨
    (∃ i v w, op = .flagSet i v w ∧ i < 4 ∧ t = s.setFlag w (BitVec.ofNat 2 i) v) ∨
    (∃ n a b st w f, op = .combine n a b st (some w) ∧ t = s.setSlot w f) ∨
    (∃ a v, op = .memWrite8 a v ∧ t = s.memWrite8 a v) ∨
    (∃ o a v, op = .memWrite16 o a v ∧ t = s.memWrite16 o a v) := by
  cases op with
  | decode w => cases hd : decode w <;> simp_all [State.callOp, Except.map]
  | combine n a b st slot =>
    cases slot with
    | none => left; cases n <;> simp_all [State.callOp, State.callCombine, State.flagsOut]
    | some w =>
      right; right; right; left
      cases n <;> simp only [State.callOp, State.callCombine, State.flagsOut, Except.ok.injEq,
        Prod.mk.injEq] at h <;> exact ⟨_, _, _, _, _, _, rfl, h.2.symm⟩
  | regRead i => simp only [State.callOp, State.regRead] at h; split_ifs at h <;> simp_all [Except.map]
  | regWrite i v =>
    simp only [State.callOp, State.regWrite] at h
    split_ifs at h with hi
    · simp only [Except.map, Except.ok.injEq, Prod.mk.injEq] at h
      exact .inr (.inl ⟨i, v, rfl, hi, h.2.symm⟩)
    · simp [Except.map] at h
  | flagGet i w => simp only [State.callOp, State.flagGet] at h; split_ifs at h <;> simp_all [Except.map]
  | flagSet i v w =>
    simp only [State.callOp, State.flagSet] at h
    split_ifs at h with hi
    · simp only [Except.map, Except.ok.injEq, Prod.mk.injEq] at h
      exact .inr (.inr (.inl ⟨i, v, w, rfl, hi, h.2.symm⟩))
    · simp [Except.map] at h
  | memRead8 a => simp_all [State.callOp]
  | memRead16 o a => simp_all [State.callOp]
  | memWrite8 a v =>
    simp only [State.callOp, Except.ok.injEq, Prod.mk.injEq] at h
    exact .inr (.inr (.inr (.inr (.inl ⟨a, v, rfl, h.2.symm⟩))))
  | memWrite16 o a v =>
    simp only [State.callOp, Except.ok.injEq, Prod.mk.injEq] at h
    exact .inr (.inr (.inr (.inr (.inr ⟨o, a, v, rfl, h.2.symm⟩))))

@[simp] theorem State.setFlag_mem (s : State) (w : Width) (k : BitVec 2) (v : Bool) :
    (s.setFlag w k v).mem = s.mem := by simp [State.setFlag]

theorem State.wf_callOp {s t : State} {op : BlockOp} {r : Reply} (h : s.callOp op = .ok (r, t))
    (hs : s.mem.wf = true) : t.mem.wf = true := by
  obtain rfl | ⟨i, v, -, -, rfl⟩ | ⟨i, v, w, -, -, rfl⟩ | ⟨n, a, b, st, w, f, -, rfl⟩ | ⟨a, v, -, rfl⟩ |
    ⟨o, a, v, -, rfl⟩ := State.callOp_cases h
  · exact hs
  · simpa using hs
  · simpa using hs
  · simpa using hs
  · exact State.wf_memWrite8 _ _ _ hs
  · exact State.wf_memWrite16 _ _ _ _ hs

/-- Which words decode to a tagged instruction (R112). -/
theorem decode_ok_iff (w : Word) : (∃ d, decode w = .ok d) ↔ opOk (.decode w) = true := by
  have families : ∀ f : BitVec 4, f = 0 ∨ f = 1 ∨ f = 2 ∨ f = 3 ∨ f = 4 ∨ f = 5 ∨ f = 6 ∨ f = 7 ∨
      f = 8 ∨ f = 9 ∨ f = 10 ∨ f = 11 ∨ f = 12 ∨ f = 13 ∨ f = 14 ∨ f = 15 := by decide
  simp only [opOk, decode, decodeRow]
  generalize familyOf w = f
  rcases families f with rfl | rfl | rfl | rfl | rfl | rfl | rfl | rfl | rfl | rfl | rfl | rfl | rfl |
    rfl | rfl | rfl <;>
    simp [decodeOperation, decodeLoad, decodeStore, decodeJump, decodeStack, Instr.decoded, invalidFamilies]

/-- A block operation succeeds exactly when it cannot err (R165). -/
theorem State.callOp_ok_iff (s : State) (op : BlockOp) : (∃ r, s.callOp op = .ok r) ↔ opOk op = true := by
  cases op with
  | decode w =>
    rw [← decode_ok_iff]
    simp only [State.callOp]
    cases decode w <;> simp [Except.map]
  | regRead i => simp only [State.callOp, State.regRead, opOk]; split_ifs <;> simp_all [Except.map]
  | regWrite i v => simp only [State.callOp, State.regWrite, opOk]; split_ifs <;> simp_all [Except.map]
  | flagGet i w => simp only [State.callOp, State.flagGet, opOk]; split_ifs <;> simp_all [Except.map]
  | flagSet i v w => simp only [State.callOp, State.flagSet, opOk]; split_ifs <;> simp_all [Except.map]
  | combine n a b st slot => exact ⟨fun _ => rfl, fun _ => ⟨_, rfl⟩⟩
  | memRead8 a => exact ⟨fun _ => rfl, fun _ => ⟨_, rfl⟩⟩
  | memRead16 o a => exact ⟨fun _ => rfl, fun _ => ⟨_, rfl⟩⟩
  | memWrite8 a v => exact ⟨fun _ => rfl, fun _ => ⟨_, rfl⟩⟩
  | memWrite16 o a v => exact ⟨fun _ => rfl, fun _ => ⟨_, rfl⟩⟩

/-- A block operation as a step answers a next state or one of the three errors. -/
theorem State.perform_cases (s : State) (op : BlockOp) :
    (∃ r t, s.callOp op = .ok (r, t) ∧ s.perform op = .next { t with reply := r }) ∨
    (∃ e, s.callOp op = .error e ∧ s.perform op = .fault (faultOf e)) := by
  unfold State.perform
  cases h : s.callOp op with
  | ok r => exact .inl ⟨r.1, r.2, rfl, rfl⟩
  | error e => exact .inr ⟨e, rfl, rfl⟩

/-! ### One step -/

/-- An Operation goes on exactly when its unit selector is clear (R144). -/
theorem State.runOperation_next_iff (s : State) (i : Instr) (a dest : BitVec 2) (m : SourceMode)
    (st : AluSettings) (w u : Bool) : (∃ t, s.runOperation i a dest m st w u = .next t) ↔ u = false := by
  cases u <;> simp [State.runOperation]

/-- An instruction goes on exactly when it has an execution rule (R144, R149, R150). -/
theorem exec_next_iff (i : Instr) (s : State) : (∃ t, exec i s = .next t) ↔ runs i = true := by
  cases i with
  | op a m st w u => exact (s.runOperation_next_iff _ a a m st w u).trans (by cases u <;> simp [runs])
  | cmp a m st w u => exact (s.runOperation_next_iff _ a 0 m st w u).trans (by cases u <;> simp [runs])
  | load d b m e w sh => exact ⟨fun _ => rfl, fun _ => ⟨_, rfl⟩⟩
  | store r b m e w sh => exact ⟨fun _ => rfl, fun _ => ⟨_, rfl⟩⟩
  | jump b sh inv k call => exact ⟨fun _ => rfl, fun _ => ⟨_, rfl⟩⟩
  | sread r b f c v => exact ⟨fun _ => rfl, fun _ => ⟨_, rfl⟩⟩
  | swrite r b f c v => exact ⟨fun _ => rfl, fun _ => ⟨_, rfl⟩⟩
  | _ => exact ⟨fun ⟨_, h⟩ => (by cases h), fun h => (by cases h)⟩

/-- What a step that goes on can be: the execution of the presented instruction, or a block operation. -/
theorem step_next {s t : State} (h : step s = .next t) :
    (∃ src inp rest, s.pending = .present src inp :: rest ∧
      exec ((s.accept rest inp).presentedInstr src) (s.accept rest inp) = .next t) ∨
    (∃ op rest r u, s.pending = .perform op :: rest ∧
      State.callOp { s with pending := rest } op = .ok (r, u) ∧ t = { u with reply := r }) := by
  unfold step at h
  split at h
  · cases h
  · rename_i src inp rest hp; exact .inl ⟨src, inp, rest, hp, h⟩
  · rename_i op rest hp
    rcases State.perform_cases { s with pending := rest } op with ⟨r, u, hr, hn⟩ | ⟨e, -, hn⟩
    · rw [hn] at h
      cases h
      exact .inr ⟨op, rest, r, u, hp, hr, rfl⟩
    · rw [hn] at h; cases h

end Sys2Proof.Machine
end

