-- ==== Sys2Proof/Tests/Slice0.lean ====
section
/-! SUPPORT. Tests: expected results are the spec's own vectors (spec/95_test_vectors.md, whose sections 1 to
6 they cite) or hand calculation from its rules; and one witness for the hypotheses of each statement. -/

namespace Sys2Proof.Tests

open Sys2Proof Sys2Proof.Machine

/-! ### WellFormed: each check refuses an ill-formed value -/

theorem test_destination_refused :
    Decoded.wellFormed (.operation 1 2 .register ⟨false, false, false, false, false⟩ false false) = false := by
  decide

theorem test_load_shift_refused :
    Decoded.wellFormed (.load 0 ⟨0, 8⟩ .immediate false false) = false := by decide

theorem test_store_shift_refused :
    Decoded.wellFormed (.store 0 ⟨0, 8⟩ .directAddress false false) = false := by decide

theorem test_jump_shift_refused : Decoded.wellFormed (.jump ⟨0, 8⟩ ⟨0, false⟩ false) = false := by decide

theorem test_stack_read_delta_refused : Decoded.wellFormed (.stackRead 0 ⟨0, 0⟩ 5) = false := by decide

theorem test_stack_write_delta_refused : Decoded.wellFormed (.stackWrite 0 ⟨0, 0⟩ 385) = false := by decide

theorem test_valid_family_is_no_error : decodeAnswerOk (.error (.invalidOpcode 4)) = false := by decide

theorem test_other_error_is_no_decode_answer : decodeAnswerOk (.error (.invalidFlag 4)) = false := by decide

/-! ### Decoding: the words of 95_test_vectors.md section 2, bit by bit -/

theorem test_decode_op :
    decodeRow 0b0000010001010000 = .op 1 .immediate ⟨false, true, false, true, false⟩ false false := by
  decide

theorem test_decode_op_all_ones :
    decodeRow 0b0000111111111111 = .op 3 .memoryBE ⟨true, true, true, true, true⟩ true true := by decide

theorem test_decode_cmp :
    decodeRow 0b0001100101010000 = .cmp 2 .register ⟨false, true, false, true, false⟩ false false := by
  decide

theorem test_decode_cmp_and :
    decodeRow 0b0001010011111000 = .cmp 1 .immediate ⟨true, true, true, true, true⟩ false false := by decide

theorem test_decode_load : decodeRow 0b0010011010110110 = .load 1 2 .register true true 3 := by decide

theorem test_decode_load_indirect :
    decodeRow 0b0010011111100101 = .load 1 3 .addressRegisterIndirect true false 2 := by decide

theorem test_decode_store :
    decodeRow 0b0011101010110100 = .store 2 2 .addressRegisterIndirect true true 2 := by decide

theorem test_decode_store_bit6 : decodeRow 0b0011000001000000 = decodeRow 0b0011000000000000 := by decide

theorem test_decode_jump : decodeRow 0b0100110001101110 = .jump 3 3 false 3 true := by decide

theorem test_decode_jump_unnamed_bits :
    decodeRow 0b0100001100000001 = decodeRow 0b0100000000000000 := by decide

theorem test_decode_sread : decodeRow 0b0110011110100111 = .sread 1 3 5 1 3 := by decide

theorem test_decode_sread_delta : spDelta 1 3 = 6 := by decide

theorem test_decode_swrite : decodeRow 0b0111101101011110 = .swrite 2 3 2 7 2 := by decide

theorem test_decode_swrite_delta : spDelta 7 2 = 256 := by decide

theorem test_decode_more : decodeRow 0b1111101010111100 = .more 0xABC := by decide

theorem test_decode_invalid5 : decodeRow 0b0101111111111111 = .invalid5 := by decide

theorem test_decode_invalid8 : decodeRow 0b1000000000000000 = .invalid8 := by decide

theorem test_decode_invalid9 : decodeRow 0b1001000100100011 = .invalid9 := by decide

theorem test_decode_invalidA : decodeRow 0b1010010110100101 = .invalidA := by decide

theorem test_decode_invalidB : decodeRow 0b1011111111111111 = .invalidB := by decide

theorem test_decode_invalidC : decodeRow 0b1100000000000001 = .invalidC := by decide

theorem test_decode_invalidD : decodeRow 0b1101000000001101 = .invalidD := by decide

theorem test_decode_invalidE : decodeRow 0b1110111111111111 = .invalidE := by decide

/-- Section 1.1: `decode(0x5000)`. -/
theorem test_decode_error_payload : decode 0x5000 = .error (.invalidOpcode 5) := by rfl

/-- Section 2.1: 0x1000 decodes as 0x0000 does. -/
theorem test_decode_comparison_of_slot0 : decode 0x1000 = decode 0x0000 := by rfl

theorem test_encode_op :
    encode (.op 1 .immediate ⟨false, true, false, true, false⟩ false false) = 0x0450 := by decide

theorem test_encode_load : encode (.load 1 3 .addressRegisterIndirect true false 2) = 0x27E4 := by decide

theorem test_encode_store : encode (.store 2 2 .addressRegisterIndirect true true 2) = 0x3AB4 := by decide

theorem test_encode_jump : encode (.jump 3 3 false 3 true) = 0x4C6E := by decide

theorem test_encode_swrite : encode (.swrite 2 3 2 7 2) = 0x7B5E := by decide

/-- One word more than 16 bits is no instruction (R60). -/
theorem test_table_word_too_long : decodeTableWord 32 0x0450 = none := by decide

/-! ### The ALU: 95_test_vectors.md section 3 -/

theorem test_add_source_case :
    combine (0x0005 : Word) 0x0003 (settingsFrom 0b00000) = ⟨0x0008, false, false, false⟩ := by decide

theorem test_add_wraps :
    combine (0xFFFF : Word) 0x0001 (settingsFrom 0b00000) = ⟨0x0000, true, true, false⟩ := by decide

theorem test_sub_borrow :
    combine (0x0003 : Word) 0x0005 (settingsFrom 0b01010) = ⟨0xFFFE, false, false, true⟩ := by decide

theorem test_sub_byte :
    combine (0x80 : Byte) 0x01 (settingsFrom 0b01010) = ⟨0x7F, true, false, false⟩ := by decide

theorem test_or_carry_chain :
    combine (0x0F : Byte) 0x1F (settingsFrom 0b00011) = ⟨0x00, false, true, false⟩ := by decide

theorem test_flood_alone :
    combine (0x00 : Byte) 0x00 (settingsFrom 0b00100) = ⟨0xFE, true, false, true⟩ := by decide

theorem test_nor_with_or_bit0 :
    combine (0xCC : Byte) 0xAA (settingsFrom 0b00101) = ⟨0x10, true, false, false⟩ := by decide

theorem test_and : combine (0xCCCC : Word) 0xAAAA (settingsFrom 0b11111) = ⟨0x8888, true, false, true⟩ := by
  decide

theorem test_xor : combine (0x1235 : Word) 0x3412 (settingsFrom 0b10110) = ⟨0x2627, true, false, false⟩ := by
  decide

/-- Section 3.5, the source's 4-bit illustration: carries 1, 1, 0, 0. -/
theorem test_or_carry_four_bits :
    combine (0b0101 : BitVec 4) 0b0011 (settingsFrom 0b00011) = ⟨0b0100, false, false, false⟩ := by decide

/-! ### States for the tests -/

/-- A state with three registers, what the driver brings, and one word presented. -/
def stateWith (x1 x2 x3 : Word) (inp : Inputs) (w : Word) : State :=
  { State.reset with x1 := x1, x2 := x2, x3 := x3, inputs := inp, pending := [.present (.given w) inp] }

/-- What the driver brings in the immediate mode. -/
def imm (v : Word) : Inputs := ⟨v, 0, 0⟩

/-- The state with both bytes of program 3 in memory: M[0x00FF] = 0x34, M[0x0100] = 0x12. -/
def memState (x3 : Word) (w : Word) : State :=
  { stateWith 0 0 x3 ⟨0, 0, 0x00FF⟩ w with mem := [(0x00FF, 0x34), (0x0100, 0x12)] }

/-! ### Register file, flags, memory: 95_test_vectors.md section 4 -/

theorem test_reg_write_zero : State.reset.regWrite 0 0xFFFF = .ok State.reset := by rfl

theorem test_reg_read_three : (stateWith 1 2 3 (imm 0) 0).regRead 3 = .ok 3 := by rfl

theorem test_reg_read_four : State.reset.regRead 4 = .error (.invalidRegister 4) := by rfl

theorem test_reg_write_255 : State.reset.regWrite 255 1 = .error (.invalidRegister 255) := by rfl

theorem test_flag_set_one :
    State.reset.flagSet 1 true .w8 = .ok { State.reset with f8 := ⟨true, false, false⟩ } := by rfl

theorem test_flag_set_four : State.reset.flagSet 4 true .w8 = .error (.invalidFlag 4) := by rfl

theorem test_flag_get_zero : State.reset.flagGet 0 .w16 = .ok true := by rfl

theorem test_flag_get_seven : State.reset.flagGet 7 .w16 = .error (.invalidFlag 7) := by rfl

theorem test_mem_wraps :
    (State.reset.memWrite16 .little 0xFFFF 0x1234).mem = [(0, 0x12), (0xFFFF, 0x34)] := by decide

theorem test_mem_read_back_wrapped :
    (State.reset.memWrite16 .little 0xFFFF 0x1234).memRead16 .little 0xFFFF = 0x1234 := by decide

theorem test_mem_big_endian_twin :
    (State.reset.memWrite16 .little 0xFFFF 0x1234).memRead16 .big 0xFFFF = 0x3412 := by decide

theorem test_mem_write_zero_removes :
    ((State.reset.memWrite8 0x10 0xAB).memWrite8 0x10 0).mem = [] := by decide

/-! ### Operation and Comparison: 95_test_vectors.md sections 5 and 6 -/

/-- Section 5, first row: x[1] = 5 - 3; F[W16] = 1, 0, 0. -/
theorem test_exec_op_sub :
    ∃ t, step (stateWith 0x0005 0 0 (imm 0x0003) 0x0450) = .next t ∧
      t.x1 = 0x0002 ∧ t.f16 = ⟨true, false, false⟩ := ⟨_, rfl, by decide, by decide⟩

/-- Section 5, fourth row: the low byte of x[2] is 0x10, F[W8] = 1, 0, 0, F[W16] unchanged. -/
theorem test_exec_op_eight_bit :
    ∃ t, step (stateWith 0 0x12F0 0 (imm 0x0020) 0x0804) = .next t ∧
      t.f8 = ⟨true, false, false⟩ ∧ t.f16 = ⟨false, false, false⟩ := ⟨_, rfl, by decide, by decide⟩

/-- Section 5, second row: a Comparison changes the flags only. -/
theorem test_exec_cmp :
    ∃ t, step (stateWith 0x0005 0 0 (imm 0x0005) 0x1450) = .next t ∧
      t.x1 = 0x0005 ∧ t.f16 = ⟨true, true, false⟩ := ⟨_, rfl, by decide, by decide⟩

/-- Program 3, first step: a little-endian memory operand. -/
theorem test_exec_op_memory_little :
    ∃ t, step (memState 0x0001 0x0E00) = .next t ∧ t.x3 = 0x1235 ∧ t.f16 = ⟨false, false, false⟩ :=
  ⟨_, rfl, by decide, by decide⟩

/-- Program 3, second step: a big-endian memory operand. -/
theorem test_exec_op_memory_big :
    ∃ t, step (memState 0x1235 0x0FB0) = .next t ∧ t.x3 = 0x2627 ∧ t.f16 = ⟨true, false, false⟩ :=
  ⟨_, rfl, by decide, by decide⟩

/-- Section 5: the unit selector is refused. -/
theorem test_exec_unit_refused :
    step (stateWith 5 0 0 (imm 3) 0x0452) = .refused .unspecifiedUnit := by rfl

/-- Section 5: a MoreSpecific word is refused. -/
theorem test_exec_more_refused :
    step (stateWith 0 0 0 (imm 0) 0xF000) = .refused (.unspecifiedSecondary 0) := by rfl

/-- Section 5: an invalid word faults. -/
theorem test_exec_invalid_faults :
    step (stateWith 0 0 0 (imm 0) 0x5000) = .fault (.invalidOpcode 5) := by rfl

/-! ### The driver's families run -/

theorem test_exec_load_runs : ∃ t, step (State.reset.withFetchWord 16 0x26B6) = .next t := ⟨_, rfl⟩

theorem test_exec_load_keeps_other_registers :
    ∃ t, step (stateWith 1 2 3 (imm 0) 0x26B6) = .next t ∧ t.x2 = 2 ∧ t.x3 = 3 := ⟨_, rfl, rfl, rfl⟩

theorem test_exec_store_runs : ∃ t, step (State.reset.withFetchWord 16 0x3AB4) = .next t := ⟨_, rfl⟩

theorem test_exec_jump_runs : ∃ t, step (State.reset.withFetchWord 16 0x4C6E) = .next t := ⟨_, rfl⟩

/-- Section 4.4: flag index 0 inverted is never taken, so the jump only advances. -/
theorem test_exec_jump_never :
    ∃ t, step (State.reset.withFetchWord 16 0x4010) = .next t ∧
      t.pc = Config.nextPc (.jump 0 0 true 0 false) (imm 0) 0 := ⟨_, rfl, rfl⟩

/-- R102: a call on the constant-true flag is taken; it leaves its saving operations to the driver's next
steps. -/
theorem test_exec_call_saves_next :
    ∃ t, step (State.reset.withFetchWord 16 0x4002) = .next t ∧ t.x1 = 0 ∧
      t.pending = (Config.callSave (imm 0) 0 0 t.pc).map DriverAction.perform ++ [] := ⟨_, rfl, rfl, rfl⟩

theorem test_exec_sread_runs : ∃ t, step (State.reset.withFetchWord 16 0x67A7) = .next t := ⟨_, rfl⟩

theorem test_exec_swrite_runs : ∃ t, step (State.reset.withFetchWord 16 0x7B5E) = .next t := ⟨_, rfl⟩

theorem test_step_driver_stopped : step State.reset = .fault .driverStopped := by rfl

theorem test_step_block_operation :
    ∃ t, step { State.reset with pending := [.perform (.regWrite 3 0xABCD)] } = .next t ∧
      t.x3 = 0xABCD ∧ t.reply = .done := ⟨_, rfl, rfl, rfl⟩

/-! ### Witnesses: a state and operands that meet the hypotheses of each statement that has some -/

theorem witness_DecodeErrsExactlyOnInvalidFamilies :
    decode 0x8000 = .error (.invalidOpcode 8) ∧ decode 0xEFFF = .error (.invalidOpcode 14) ∧
      (0x5FFF : Word).toNat / 4096 = 5 := ⟨rfl, rfl, by decide⟩

theorem witness_DecodeOperationFields : (0x0FFF : Word).toNat / 4096 = 0 := by decide

theorem witness_DecodeOperationFields_slot0 : (0x00FF : Word).toNat / 4096 = 0 ∧ fieldAt 10 2 0x00FF = 0 := by
  decide

theorem witness_DecodeComparisonFields :
    (0x1450 : Word).toNat / 4096 = 1 ∧
      ∃ t, exec (decodeRow 0x1450) State.reset = .next t := ⟨by decide, _, rfl⟩

theorem witness_DecodeLoadFields : (0x2FFF : Word).toNat / 4096 = 2 := by decide

theorem witness_DecodeStoreFields : (0x3FFF : Word).toNat / 4096 = 3 := by decide

theorem witness_DecodeJumpFields : (0x4FFF : Word).toNat / 4096 = 4 := by decide

theorem witness_DecodeStackFields :
    (0x6FFF : Word).toNat / 4096 = 6 ∧ (0x7FFF : Word).toNat / 4096 = 7 := by decide

theorem witness_DecodeMoreSpecificKeepsTwelveBits : (0xFFFF : Word).toNat / 4096 = 15 := by decide

theorem witness_DecodeIgnoresUnnamedBits :
    ((0x3040 : Word).toNat / 4096, (0xFFBE : Word)) ∈ [(3, (0xFFBE : Word))] ∧
      (0x3040 : Word) &&& 0xFFBE = 0x3001 &&& 0xFFBE := by decide

theorem witness_DecodeOfEncodeIsIdentity : (Instr.jump 3 7 true 3 true).wellFormed = true := by decide

theorem witness_EncodeOfDecodeClearsUnnamedBits :
    ((0x4FFF : Word).toNat / 4096, (0xFCFE : Word)) ∈ [(4, (0xFCFE : Word))] := by decide

theorem witness_SettingsAreTheLowFiveBits : (0xE5 : Byte) &&& 0x1F = 0x05 &&& 0x1F := by decide

theorem witness_ComparisonDiffersInDestinationOnly : (0x0400 : Word).toNat / 4096 = 0 := by decide

theorem witness_AdderModeAdds :
    (settingsFrom 0b11010).floodCarry = false ∧ (settingsFrom 0b11010).orMode = false := by decide

theorem witness_SourceAluProperties : (settingsFrom 0b00100).floodCarry = true := by decide

theorem witness_FloodCarryResult : (settingsFrom 0b11111).floodCarry = true := by decide

theorem witness_RegisterFileContract :
    State.reset.regRead 4 = .error (.invalidRegister 4) ∧
      ∃ t, State.reset.regWrite 1 7 = .ok t ∧ t.regRead 1 = .ok 7 ∧ t.regRead 3 = .ok 0 :=
  ⟨rfl, _, rfl, rfl, rfl⟩

theorem witness_FlagSetContract :
    ∃ t, State.reset.flagSet 3 true .w16 = .ok t ∧ t.flagGet 3 .w16 = .ok true ∧
      t.flagGet 3 .w8 = .ok false ∧ t.flagGet 2 .w16 = .ok false := ⟨_, rfl, rfl, rfl, rfl⟩

theorem witness_FlagGetContract : State.reset.flagGet 4 .w8 = .error (.invalidFlag 4) := by rfl

theorem witness_AluFlagWriteIsOptionalAndWhole : Width.w8 ≠ Width.w16 := by decide

theorem witness_LittleEndianAccess :
    (0x0001 : Word) ≠ 0xFFFF ∧ (0x0001 : Word) ≠ 0xFFFF + 1 := by decide

theorem witness_ByteAndBigEndianAccess :
    (0xFFFE : Word) ≠ 0xFFFF ∧ (0xFFFE : Word) ≠ 0xFFFF + 1 := by decide

theorem witness_StoredWordIsFetched :
    ({ State.reset with pending := [.present (.atPc .big) (imm 0)] } : State).pending =
      .present (.atPc .big) (imm 0) :: [] := by rfl

theorem witness_StepKeepsInvariant :
    (stateWith 0x0005 0 0 (imm 0x0003) 0x0450).Inv ∧
      ∃ t, step (stateWith 0x0005 0 0 (imm 0x0003) 0x0450) = .next t := ⟨rfl, _, rfl⟩

theorem witness_StepRunsThePresentedInstruction :
    (stateWith 0 0 0 (imm 1) 0x0400).pending = .present (.given 0x0400) (imm 1) :: [] := by rfl

theorem witness_StepPerformsBlockOperations :
    State.callOp State.reset (.regRead 0) = .ok (.word 0, State.reset) ∧
      State.callOp State.reset (.regRead 4) = .error (.invalidRegister 4) ∧
      State.reset.pending = [] := ⟨rfl, rfl, rfl⟩

theorem witness_StepPerformsBlockOperations_decode :
    decode 0xFABC = .ok (.moreSpecific 0xABC) := by rfl

theorem witness_CalledOperationsRunNextInOrder :
    State.reset.callOp (.decode 0x5000) = .error (.invalidOpcode 5) ∧
      step (State.reset.callNext [.decode 0x5000, .regWrite 1 7]) = .fault (.invalidOpcode 5) := ⟨rfl, rfl⟩

theorem witness_BlockOperationErrors :
    State.reset.perform (.flagSet 4 true .w8) = .fault (.invalidFlag 4) ∧
      State.reset.perform (.decode 0xEFFF) = .fault (.invalidOpcode 14) := ⟨rfl, rfl⟩

theorem witness_BlockOperationFrame :
    (∃ t, State.reset.perform (.memRead8 0) = .next t ∧ t.reply = .byte 0) ∧
      (∀ i v, BlockOp.memRead8 0 ≠ .regWrite i v) ∧ (∀ i v w, BlockOp.memRead8 0 ≠ .flagSet i v w) ∧
      (∀ n a b st w, BlockOp.memRead8 0 ≠ .combine n a b st (some w)) ∧
      (∀ a v, BlockOp.memRead8 0 ≠ .memWrite8 a v) ∧ ∀ o a v, BlockOp.memRead8 0 ≠ .memWrite16 o a v :=
  ⟨⟨_, rfl, rfl⟩, by simp, by simp, by simp, by simp, by simp⟩

theorem witness_BlockOperationFrame_writes :
    (∃ t, State.reset.perform (.regWrite 3 7) = .next t ∧ t.reg 3 = 7) ∧
      (∃ t, State.reset.perform (.flagSet 3 true .w16) = .next t ∧ t.f16.sign = true) ∧
      (∃ t, State.reset.perform (.combine .w8 1 2 (settingsFrom 0) (some .w16)) = .next t ∧
        t.reply = .alu 3 false false false) ∧
      (∃ t, State.reset.perform (.memWrite8 0xFFFF 7) = .next t ∧ t.memRead8 0xFFFF = 7) ∧
      ∃ t, State.reset.perform (.memWrite16 .little 0xFFFF 0x0102) = .next t ∧ t.memRead8 0 = 1 :=
  ⟨⟨_, rfl, rfl⟩, ⟨_, rfl, rfl⟩, ⟨_, rfl, by decide⟩, ⟨_, rfl, by decide⟩, _, rfl, by decide⟩

theorem witness_WhatEachFamilyCanChange :
    ∃ t, exec (.cmp 1 .immediate ⟨true, true, true, true, true⟩ false false) State.reset = .next t :=
  ⟨_, rfl⟩

theorem witness_RunEndsOnlyAtErrorsAndRefusals :
    ∀ x ∈ ([.present (.given 0x0450) (imm 3), .perform (.regWrite 3 1), .present (.given 0x4FFF) (imm 0)] :
      List DriverAction), actionOk x = true := by decide

theorem witness_RunEndsOnlyAtErrorsAndRefusals_saves :
    savesOk (.present (.given 0x0450) (imm 3)) ∧ savesOk (.perform (.regWrite 3 1)) ∧
      savesOk (.present (.given 0x4000) (imm 0)) := by
  refine ⟨fun h => ?_, trivial, fun h => ?_⟩ <;> exact absurd h (by decide)

theorem witness_StepGoesOnExactlyWhenItsActionRuns :
    ({ State.reset with mem := [(1, 0x04)], pending := [.present (.atPc .little) (imm 0)] } : State).nextActionOk =
        true ∧
      ({ State.reset with mem := [(1, 0x50)], pending := [.present (.atPc .little) (imm 0)] } : State).nextActionOk =
        false := by decide

theorem witness_OperationEightBitResult : (2 : BitVec 2) ≠ 0 := by decide

theorem witness_SameSlotUsesOldValueTwice :
    (stateWith 0 0 0x4001 ⟨0, 3, 0⟩ 0x0D00).inputs.register = 3 := by rfl

theorem witness_AndWithZeroGivesKnownValue :
    (stateWith 0xBEEF 0 0 (imm 0) 0x04F8).bOperand .immediate false = 0 := by rfl

theorem witness_EightBitComparisonIgnoresHighBytes :
    lowByte ((stateWith 0x1234 0 0 (imm 0x0011) 0).reg 1) =
        lowByte ((stateWith 0x5634 0 0 (imm 0xFF11) 0).reg 1) ∧
      lowByte ((stateWith 0x1234 0 0 (imm 0x0011) 0).bOperand .immediate true) =
        lowByte ((stateWith 0x5634 0 0 (imm 0xFF11) 0).bOperand .immediate true) ∧
      (∃ t, exec (.cmp 1 .immediate ⟨false, true, false, true, false⟩ true false)
        (stateWith 0x1234 0 0 (imm 0x0011) 0) = .next t) ∧
      ∃ t, exec (.cmp 1 .immediate ⟨false, true, false, true, false⟩ true false)
        (stateWith 0x5634 0 0 (imm 0xFF11) 0) = .next t :=
  ⟨by decide, by decide, ⟨_, rfl⟩, _, rfl⟩

theorem witness_LoadResult : (3 : BitVec 2) ≠ 0 := by decide

theorem witness_JumpResult :
    ((true = false) ∨ State.reset.jumpTaken 0 true = false) ∧
      ((false = false) ∨ State.reset.jumpTaken 0 false = false) := ⟨.inr rfl, .inl rfl⟩

theorem witness_SubroutineCallResult : State.reset.jumpTaken 0 false = true := by rfl

theorem witness_StackAccessResult : (1 : BitVec 2) ≠ 0 := by decide

end Sys2Proof.Tests
end

section
/-! The register file and the flags register as their callers index them, by any natural number
(10_state.md R12 to R14, R18 to R20). -/

namespace Sys2Proof.Machine

open Sys2Proof

/-! ### Indices below 4 -/

theorem ofNat_index_inj {i j : Nat} (hi : i < 4) (hj : j < 4) :
    BitVec.ofNat 2 i = BitVec.ofNat 2 j ↔ i = j := by
  rw [← BitVec.toNat_inj, BitVec.toNat_ofNat, BitVec.toNat_ofNat]
  omega

theorem ofNat_index_ne_zero {i : Nat} (h0 : 0 < i) (h4 : i < 4) : BitVec.ofNat 2 i ≠ 0 := by
  have hi : i ≠ 0 := by omega
  exact fun h => hi ((ofNat_index_inj h4 (by omega)).mp h)

/-! ### `reg_read` and `reg_write` -/

theorem State.regRead_of_lt (s : State) {i : Nat} (h : i < 4) :
    s.regRead i = .ok (s.reg (BitVec.ofNat 2 i)) := if_pos h

theorem State.regRead_of_ge (s : State) {i : Nat} (h : 4 ≤ i) :
    s.regRead i = .error (.invalidRegister i) := if_neg (Nat.not_lt.mpr h)

theorem State.regWrite_of_lt (s : State) (v : Word) {i : Nat} (h : i < 4) :
    s.regWrite i v = .ok (s.setReg (BitVec.ofNat 2 i) v) := if_pos h

theorem State.regWrite_of_ge (s : State) (v : Word) {i : Nat} (h : 4 ≤ i) :
    s.regWrite i v = .error (.invalidRegister i) := if_neg (Nat.not_lt.mpr h)

/-- The register read back after a write to it (R13). -/
theorem State.regRead_setReg_same (s : State) (v : Word) {i : Nat} (h0 : 0 < i) (h4 : i < 4) :
    (s.setReg (BitVec.ofNat 2 i) v).regRead i = .ok v := by
  rw [State.regRead_of_lt _ h4, State.reg_setReg_same s v (ofNat_index_ne_zero h0 h4)]

/-- A register write leaves what every other index answers alone, errors included (R12, R13). -/
theorem State.regRead_setReg_ne (s : State) (v : Word) {i j : Nat} (h4 : i < 4) (h : j ≠ i) :
    (s.setReg (BitVec.ofNat 2 i) v).regRead j = s.regRead j := by
  rcases Nat.lt_or_ge j 4 with hj | hj
  · have hne : BitVec.ofNat 2 j ≠ BitVec.ofNat 2 i := mt (ofNat_index_inj hj h4).mp h
    rw [State.regRead_of_lt _ hj, State.regRead_of_lt _ hj, State.reg_setReg_ne s v hne]
  · rw [State.regRead_of_ge _ hj, State.regRead_of_ge _ hj]

theorem State.sameFlags_setReg (s : State) (i : BitVec 2) (v : Word) : SameFlags s (s.setReg i v) :=
  ⟨s.setReg_f8 i v, s.setReg_f16 i v⟩

/-- Settles O26: by index, 0, 1 to 3, and 4 up, with what a register write leaves alone. -/
theorem registerFileContract : Obligations.RegisterFileContract := by
  intro s v
  refine ⟨⟨rfl, rfl, rfl, rfl⟩, fun i h => ⟨s.regRead_of_ge h, s.regWrite_of_ge v h⟩, rfl, ?_⟩
  intro i h0 h4
  exact ⟨_, s.regWrite_of_lt v h4, s.regRead_setReg_same v h0 h4,
    fun j h => s.regRead_setReg_ne v h4 h, s.sameFlags_setReg _ v, s.setReg_mem _ v⟩

/-! ### `flag_get` and `flag_set` -/

theorem State.flagGet_of_lt (s : State) (w : Width) {k : Nat} (h : k < 4) :
    s.flagGet k w = .ok (s.flag w (BitVec.ofNat 2 k)) := if_pos h

theorem State.flagGet_of_ge (s : State) (w : Width) {k : Nat} (h : 4 ≤ k) :
    s.flagGet k w = .error (.invalidFlag k) := if_neg (Nat.not_lt.mpr h)

theorem State.flagSet_of_lt (s : State) (v : Bool) (w : Width) {k : Nat} (h : k < 4) :
    s.flagSet k v w = .ok (s.setFlag w (BitVec.ofNat 2 k) v) := if_pos h

theorem State.flagSet_of_ge (s : State) (v : Bool) (w : Width) {k : Nat} (h : 4 ≤ k) :
    s.flagSet k v w = .error (.invalidFlag k) := if_neg (Nat.not_lt.mpr h)

/-- Setting index 0 of a slot is a no-op (R20). -/
theorem State.setFlag_zero (s : State) (w : Width) (v : Bool) : s.setFlag w 0 v = s := by
  cases w <;> rfl

/-- The flags of both slots after a set, at every index (R20). -/
theorem State.flag_setFlag (s : State) (w u : Width) (k j : BitVec 2) (v : Bool) :
    (s.setFlag w k v).flag u j = if u = w ∧ j = k ∧ k ≠ 0 then v else s.flag u j := by
  unfold State.flag State.setFlag
  rw [State.slot_setSlot]
  by_cases hu : u = w
  · subst hu
    simp only [if_true, true_and, Flags.get_set]
  · rw [if_neg hu, if_neg fun h => hu h.1]

/-- The flag read back after it is set (R20). -/
theorem State.flagGet_setFlag_same (s : State) (v : Bool) (w : Width) {k : Nat} (h0 : 0 < k)
    (h4 : k < 4) : (s.setFlag w (BitVec.ofNat 2 k) v).flagGet k w = .ok v := by
  rw [State.flagGet_of_lt _ _ h4, State.flag_setFlag, if_pos ⟨rfl, rfl, ofNat_index_ne_zero h0 h4⟩]

/-- A flag set leaves what every other index, and the other width, answers alone, errors included (R19,
R20). -/
theorem State.flagGet_setFlag_ne (s : State) (v : Bool) (w u : Width) {k j : Nat} (h4 : k < 4)
    (h : j ≠ k ∨ u ≠ w) : (s.setFlag w (BitVec.ofNat 2 k) v).flagGet j u = s.flagGet j u := by
  rcases Nat.lt_or_ge j 4 with hj | hj
  · have hne : ¬ (u = w ∧ BitVec.ofNat 2 j = BitVec.ofNat 2 k ∧ BitVec.ofNat 2 k ≠ 0) :=
      fun ⟨hu, hjk, _⟩ => h.elim (· ((ofNat_index_inj hj h4).mp hjk)) (· hu)
    rw [State.flagGet_of_lt _ _ hj, State.flagGet_of_lt _ _ hj, State.flag_setFlag, if_neg hne]
  · rw [State.flagGet_of_ge _ _ hj, State.flagGet_of_ge _ _ hj]

theorem State.sameRegs_setFlag (s : State) (w : Width) (k : BitVec 2) (v : Bool) :
    SameRegs s (s.setFlag w k v) := fun i => s.reg_setSlot w _ i

/-- Settles O27: by index, 0, 1 to 3, and 4 up, with what a flag set leaves alone. -/
theorem flagSetContract : Obligations.FlagSetContract := by
  intro s v w
  have hzero : s.flagSet 0 v w = .ok s := by
    rw [State.flagSet_of_lt _ _ _ (by decide)]
    exact congrArg Except.ok (s.setFlag_zero w v)
  refine ⟨hzero, fun k h => s.flagSet_of_ge v w h, ?_⟩
  intro k h0 h4
  exact ⟨_, s.flagSet_of_lt v w h4, s.flagGet_setFlag_same v w h0 h4,
    fun j u h => s.flagGet_setFlag_ne v w u h4 h, s.sameRegs_setFlag w _ v, s.setFlag_mem w _ v⟩

end Sys2Proof.Machine
end

section
/-! The memory accesses as the statements of 20_memory.md put them (R43 to R46). -/

namespace Sys2Proof.Machine

open Sys2Proof

/-! ### 16-bit access -/

/-- A 16-bit write, in either order, reaches only the two bytes of the access (R44, R46). -/
theorem State.sameMemoryBut_memWrite16 (s : State) (o : ByteOrder) (a v : Word) :
    SameMemoryBut a (a + 1) s (s.memWrite16 o a v) :=
  fun _ hfirst hsecond => s.memRead8_memWrite16_ne o v hfirst hsecond

/-- A little-endian read joins the byte at the address (low) and at the next, wrapping, address (R43). -/
theorem State.memRead16_little (s : State) (a : Word) :
    s.memRead16 .little a = s.memRead8 (a + 1) ++ s.memRead8 a := rfl

/-- Settles O30: each byte of the access by its own rule; at 0xFFFF the next address is 0. -/
theorem littleEndianAccess : Obligations.LittleEndianAccess := by
  intro s a v
  have hwrap : (0xFFFF : Word) + 1 = 0 := by decide
  have hread_top : s.memRead16 .little 0xFFFF = s.memRead8 0 ++ s.memRead8 0xFFFF := by
    rw [s.memRead16_little, hwrap]
  exact ⟨s.memRead16_little a, hread_top,
    s.memRead8_memWrite16_first .little a v, s.memRead8_memWrite16_second .little a v,
    s.sameMemoryBut_memWrite16 .little a v, s.memRead16_memWrite16_same .little a v⟩

end Sys2Proof.Machine
end

section
/-! Operation and Comparison words (40_decode_operation.md R80 to R82): the two families' reading of a
word, its fields as numbers and bits, and that a Comparison changes flags only. -/

namespace Sys2Proof

/-! ### The fields of format OP -/

/-- The settings field bit by bit, the topmost bit first (R80, R121). -/
theorem settingsFrom_fieldAt (w : Word) :
    settingsFrom (fieldAt 3 5 w) =
      ⟨w.getLsbD 7, w.getLsbD 6, w.getLsbD 5, w.getLsbD 4, w.getLsbD 3⟩ := by
  simp [settingsFrom, fieldAt]

/-- The source mode of a code is the code's entry in the table of R67. -/
theorem sourceModeOf_table (c : BitVec 2) :
    [SourceMode.immediate, .register, .memoryLE, .memoryBE][c.toNat]? = some (sourceModeOf c) := by
  revert c; decide

/-- The same for the code in `word[9:8]`, as a number (R80). -/
theorem sourceModeOf_fieldAt_table (w : Word) :
    [SourceMode.immediate, .register, .memoryLE, .memoryBE][w.toNat / 256 % 4]? =
      some (sourceModeOf (fieldAt 8 2 w)) := by
  rw [← sourceModeOf_table, fieldAt_toNat]
  rfl

/-! ### The two families -/

theorem decodeRow_of_family_zero {w : Word} (h : w.toNat / 4096 = 0) :
    decodeRow w = decodeOperation .op w := by
  rw [decodeRow, familyOf_toNat, h]
  rfl

theorem decodeRow_of_family_one {w : Word} (h : w.toNat / 4096 = 1) :
    decodeRow w = decodeOperation .cmp w := by
  rw [decodeRow, familyOf_toNat, h]
  rfl

/-- An Operation's destination is its a register (R80). -/
theorem decode_of_family_zero {w : Word} (h : w.toNat / 4096 = 0) :
    decode w = .ok (.operation (fieldAt 10 2 w) (fieldAt 10 2 w) (sourceModeOf (fieldAt 8 2 w))
      (settingsFrom (fieldAt 3 5 w)) (bitAt 2 w) (bitAt 1 w)) := by
  rw [decode, decodeRow_of_family_zero h]
  rfl

/-- A Comparison's destination is slot 0 (R81). -/
theorem decode_of_family_one {w : Word} (h : w.toNat / 4096 = 1) :
    decode w = .ok (.operation (fieldAt 10 2 w) 0 (sourceModeOf (fieldAt 8 2 w))
      (settingsFrom (fieldAt 3 5 w)) (bitAt 2 w) (bitAt 1 w)) := by
  rw [decode, decodeRow_of_family_one h]
  rfl

/-! ### The Comparison with an Operation's low twelve bits -/

/-- Setting bit 12 leaves every bit below it alone. -/
theorem bitAt_or_bit12 {n : Nat} (w : Word) (h : n < 12) : bitAt n (w ||| 0x1000) = bitAt n w := by
  have hbit : (0x1000 : Word) = BitVec.twoPow 16 12 := rfl
  have hclear : (0x1000 : Word).getLsbD n = false := by
    rw [hbit, BitVec.getLsbD_twoPow, decide_eq_false (by omega : ¬ 12 = n), Bool.and_false]
  rw [bitAt, BitVec.getLsbD_or, hclear, Bool.or_false, bitAt]

/-- Setting bit 12 leaves every field below it alone. -/
theorem fieldAt_or_bit12 {lo len : Nat} (w : Word) (h : lo + len ≤ 12) :
    fieldAt lo len (w ||| 0x1000) = fieldAt lo len w := by
  apply BitVec.eq_of_getLsbD_eq
  intro i hi
  have hbit : (w ||| 0x1000).getLsbD (lo + i) = w.getLsbD (lo + i) := bitAt_or_bit12 w (by omega)
  rw [fieldAt, fieldAt, BitVec.getLsbD_extractLsb', BitVec.getLsbD_extractLsb', hbit]

/-- Setting bit 12 of a word of family 0000 makes it one of family 0001. -/
theorem family_or_bit12 {w : Word} (h : w.toNat / 4096 = 0) : (w ||| 0x1000).toNat / 4096 = 1 := by
  have hw : familyOf w = 0 := BitVec.eq_of_toNat_eq ((familyOf_toNat w).trans h)
  rw [← familyOf_toNat, familyOf, fieldAt, BitVec.extractLsb'_or, ← fieldAt, ← familyOf, hw]
  rfl

/-- The Comparison with the low twelve bits of an Operation word has the Operation's fields and
destination 0 (R81). -/
theorem decode_or_bit12 {w : Word} (h : w.toNat / 4096 = 0) :
    decode (w ||| 0x1000) = .ok (.operation (fieldAt 10 2 w) 0 (sourceModeOf (fieldAt 8 2 w))
      (settingsFrom (fieldAt 3 5 w)) (bitAt 2 w) (bitAt 1 w)) := by
  rw [decode_of_family_one (family_or_bit12 h), fieldAt_or_bit12 w (by decide : 10 + 2 ≤ 12),
    fieldAt_or_bit12 w (by decide : 8 + 2 ≤ 12), fieldAt_or_bit12 w (by decide : 3 + 5 ≤ 12),
    bitAt_or_bit12 w (by decide : 2 < 12), bitAt_or_bit12 w (by decide : 1 < 12)]

end Sys2Proof

namespace Sys2Proof.Machine

open Sys2Proof

/-! ### Executing a Comparison -/

/-- With destination slot 0 the reference execution of an Operation writes one flag slot only (R13,
R143). -/
theorem State.executeOperation_zero (s : State) (a : BitVec 2) (st : AluSettings) (is8bit : Bool)
    (b : Word) : ∃ w f, s.executeOperation a 0 st is8bit b = s.setSlot w f := by
  cases is8bit
  · exact ⟨.w16, _, rfl⟩
  · exact ⟨.w8, _, rfl⟩

/-- What a Comparison that completes does: one flag slot's update and the advance (R81, R143). -/
theorem exec_cmp_next {s t : State} {a : BitVec 2} {m : SourceMode} {st : AluSettings} {is8bit u : Bool}
    (h : exec (.cmp a m st is8bit u) s = .next t) :
    ∃ w f, t = (s.setSlot w f).advance (.cmp a m st is8bit u) := by
  obtain ⟨-, rfl⟩ := State.runOperation_next h
  obtain ⟨w, f, hf⟩ := s.executeOperation_zero a st is8bit (s.bOperand m is8bit)
  exact ⟨w, f, by rw [hf]⟩

/-- A Comparison that completes changes no register and no memory (R81). -/
theorem exec_cmp_frame {s t : State} {a : BitVec 2} {m : SourceMode} {st : AluSettings}
    {is8bit u : Bool} (h : exec (.cmp a m st is8bit u) s = .next t) :
    SameRegs s t ∧ SameMemory s t := by
  obtain ⟨w, f, rfl⟩ := exec_cmp_next h
  exact ⟨fun i => s.reg_setSlot w f i, fun x => s.memRead8_setSlot w f x⟩

/-! ### The statements -/

/-- Settles O2: the row of family 0000, read field by field; with the a register 00 both families answer
destination 0. -/
theorem decodeOperationFields : Obligations.DecodeOperationFields := by
  intro w h
  refine ⟨fieldAt 10 2 w, sourceModeOf (fieldAt 8 2 w), bitAt 2 w, bitAt 1 w, ?_,
    fieldAt_toNat 10 2 w, sourceModeOf_fieldAt_table w, rfl, rfl, fun ha => ?_⟩
  · rw [decode_of_family_zero h, settingsFrom_fieldAt]
  · rw [decode_of_family_zero h, decode_or_bit12 h, ha]

/-- Settles O3: the row of family 0001, read field by field, and the frame of its execution. -/
theorem decodeComparisonFields : Obligations.DecodeComparisonFields := by
  intro w h
  refine ⟨⟨fieldAt 10 2 w, sourceModeOf (fieldAt 8 2 w), bitAt 2 w, bitAt 1 w, ?_,
    fieldAt_toNat 10 2 w, sourceModeOf_fieldAt_table w, rfl, rfl⟩, fun s t hexec => ?_⟩
  · rw [decode_of_family_one h, settingsFrom_fieldAt]
  · rw [decodeRow_of_family_one h] at hexec
    exact exec_cmp_frame hexec

end Sys2Proof.Machine
end

section
/-! Load and Store words (41_decode_load_store.md R90, R91): the two families' reading of a word and its
fields as numbers and bits. -/

namespace Sys2Proof

/-! ### The addressing modes -/

/-- The addressing mode of a Load's code is the code's entry in the table of R67. -/
theorem loadModeOf_table (c : BitVec 2) :
    [LoadMode.immediate, .directAddress, .register, .addressRegisterIndirect][c.toNat]? =
      some (loadModeOf c) := by
  revert c; decide

/-- The same for the code in `word[7:6]`, as a number (R90). -/
theorem loadModeOf_fieldAt_table (w : Word) :
    [LoadMode.immediate, .directAddress, .register, .addressRegisterIndirect][w.toNat / 64 % 4]? =
      some (loadModeOf (fieldAt 6 2 w)) := by
  rw [← loadModeOf_table, fieldAt_toNat]
  rfl

/-! ### The two families -/

theorem decodeRow_of_family_two {w : Word} (h : w.toNat / 4096 = 2) : decodeRow w = decodeLoad w := by
  rw [decodeRow, familyOf_toNat, h]
  rfl

theorem decodeRow_of_family_three {w : Word} (h : w.toNat / 4096 = 3) :
    decodeRow w = decodeStore w := by
  rw [decodeRow, familyOf_toNat, h]
  rfl

/-- A Load word's tagged value; its shift amount is `word[3:1]` as a number (R90). -/
theorem decode_of_family_two {w : Word} (h : w.toNat / 4096 = 2) :
    decode w = .ok (.load (fieldAt 10 2 w) ⟨fieldAt 8 2 w, w.toNat / 2 % 8⟩
      (loadModeOf (fieldAt 6 2 w)) (bitAt 5 w) (bitAt 4 w)) := by
  have hshift : (fieldAt 1 3 w).toNat = w.toNat / 2 % 8 := fieldAt_toNat 1 3 w
  rw [decode, decodeRow_of_family_two h, decodeLoad, Instr.decoded, hshift]

/-- A Store word's tagged value; its shift amount is `word[3:1]` as a number (R91). -/
theorem decode_of_family_three {w : Word} (h : w.toNat / 4096 = 3) :
    decode w = .ok (.store (fieldAt 10 2 w) ⟨fieldAt 8 2 w, w.toNat / 2 % 8⟩
      (storeModeOf (bitAt 7 w)) (bitAt 5 w) (bitAt 4 w)) := by
  have hshift : (fieldAt 1 3 w).toNat = w.toNat / 2 % 8 := fieldAt_toNat 1 3 w
  rw [decode, decodeRow_of_family_three h, decodeStore, Instr.decoded, hshift]

end Sys2Proof

namespace Sys2Proof.Machine

open Sys2Proof

/-! ### The statements -/

/-- Settles O4: the row of family 0010, read field by field. -/
theorem decodeLoadFields : Obligations.DecodeLoadFields := by
  intro w h
  exact ⟨fieldAt 10 2 w, fieldAt 8 2 w, loadModeOf (fieldAt 6 2 w), decode_of_family_two h,
    fieldAt_toNat 10 2 w, fieldAt_toNat 8 2 w, loadModeOf_fieldAt_table w⟩

/-- Settles O5: the row of family 0011, read field by field, with Store's own mode bit. -/
theorem decodeStoreFields : Obligations.DecodeStoreFields := by
  intro w h
  exact ⟨fieldAt 10 2 w, fieldAt 8 2 w, decode_of_family_three h, fieldAt_toNat 10 2 w,
    fieldAt_toNat 8 2 w⟩

end Sys2Proof.Machine
end

section
/-! Jump words (42_decode_jump_stack.md R100): the family's reading of a word and its fields as numbers and
bits. -/

namespace Sys2Proof

theorem decodeRow_of_family_four {w : Word} (h : w.toNat / 4096 = 4) : decodeRow w = decodeJump w := by
  rw [decodeRow, familyOf_toNat, h]
  rfl

/-- A Jump word's tagged value; its shift amount is `word[7:5]` as a number (R100). -/
theorem decode_of_family_four {w : Word} (h : w.toNat / 4096 = 4) :
    decode w = .ok (.jump ⟨fieldAt 10 2 w, w.toNat / 32 % 8⟩ ⟨fieldAt 2 2 w, bitAt 4 w⟩
      (bitAt 1 w)) := by
  have hshift : (fieldAt 5 3 w).toNat = w.toNat / 32 % 8 := fieldAt_toNat 5 3 w
  rw [decode, decodeRow_of_family_four h, decodeJump, Instr.decoded, hshift]

end Sys2Proof

namespace Sys2Proof.Machine

open Sys2Proof

/-! ### The statement -/

/-- Settles O6: the row of family 0100, read field by field. -/
theorem decodeJumpFields : Obligations.DecodeJumpFields := by
  intro w h
  exact ⟨fieldAt 10 2 w, fieldAt 2 2 w, decode_of_family_four h, fieldAt_toNat 10 2 w,
    fieldAt_toNat 2 2 w⟩

end Sys2Proof.Machine
end

section
/-! MoreSpecific words and the invalid families (43_decode_morespecific_invalid.md R110 to R112): the
twelve bits a MoreSpecific word keeps, and the error of a word of an invalid family. -/

namespace Sys2Proof

/-! ### MoreSpecific words -/

theorem decodeRow_of_family_fifteen {w : Word} (h : w.toNat / 4096 = 15) :
    decodeRow w = .more (fieldAt 0 12 w) := by
  rw [decodeRow, familyOf_toNat, h]
  rfl

/-- A MoreSpecific word's tagged value is its low twelve bits (R110). -/
theorem decode_of_family_fifteen {w : Word} (h : w.toNat / 4096 = 15) :
    decode w = .ok (.moreSpecific (fieldAt 0 12 w)) := by
  rw [decode, decodeRow_of_family_fifteen h, Instr.decoded]

/-- The low twelve bits as a number (R110). -/
theorem fieldAt_zero_twelve_toNat (w : Word) : (fieldAt 0 12 w).toNat = w.toNat % 4096 := by
  rw [fieldAt_toNat, pow_zero, Nat.div_one]
  rfl

/-! ### The family of a word and of its row -/

/-- The family as the four-bit value of its number (R62). -/
theorem familyOf_eq_ofNat (w : Word) : familyOf w = BitVec.ofNat 4 (w.toNat / 4096) := by
  rw [← familyOf_toNat, BitVec.ofNat_toNat, BitVec.setWidth_eq]

/-- The row a word decodes to belongs to the word's own family (R62). -/
theorem decodeRow_family (w : Word) : (decodeRow w).family = familyOf w := by
  have hlt := (familyOf w).isLt
  apply BitVec.eq_of_toNat_eq
  unfold decodeRow
  split
  case h_16 =>
    simp only [imp_false] at *
    have hfifteen : (familyOf w).toNat = 15 := by omega
    exact hfifteen.symm
  all_goals
    next hfamily => exact hfamily.symm

/-! ### The error of an invalid family -/

/-- The only error a row stands for is InvalidOpcode with the row's family (R111). -/
theorem Instr.decoded_error {i : Instr} {e : BlockError} (h : i.decoded = .error e) :
    e = .invalidOpcode i.family := by
  cases i with
  | invalid5 | invalid8 | invalid9 | invalidA | invalidB | invalidC | invalidD | invalidE =>
    exact (Except.error.inj h).symm
  | _ => cases h

/-- A word's error carries the word's family (R111). -/
theorem decode_error {w : Word} {e : BlockError} (h : decode w = .error e) :
    e = .invalidOpcode (familyOf w) := by
  rw [← decodeRow_family]
  exact Instr.decoded_error h

/-- The families of R111 by number. -/
theorem familyOf_mem_invalidFamilies_iff (w : Word) :
    familyOf w ∈ invalidFamilies ↔ w.toNat / 4096 ∈ [5, 8, 9, 10, 11, 12, 13, 14] := by
  have hnumber : ∀ f : BitVec 4, f ∈ invalidFamilies ↔ f.toNat ∈ [5, 8, 9, 10, 11, 12, 13, 14] := by
    decide
  rw [hnumber, familyOf_toNat]

end Sys2Proof

namespace Sys2Proof.Machine

open Sys2Proof

/-- Which words decode to an error: those `decode_ok_iff` leaves out (R112). -/
theorem decode_error_iff (w : Word) : (∃ e, decode w = .error e) ↔ familyOf w ∈ invalidFamilies := by
  have hok : (∃ d, decode w = .ok d) ↔ familyOf w ∉ invalidFamilies := by
    simpa [opOk] using decode_ok_iff w
  constructor
  · rintro ⟨e, he⟩
    by_contra hvalid
    obtain ⟨d, hd⟩ := hok.mpr hvalid
    cases he.symm.trans hd
  · intro hinvalid
    cases h : decode w with
    | ok d => exact absurd hinvalid (hok.mp ⟨d, h⟩)
    | error e => exact ⟨e, rfl⟩

/-! ### The statements -/

/-- Settles O1: the erring words by `decode_error_iff`, the payload by `decode_error`. -/
theorem decodeErrsExactlyOnInvalidFamilies : Obligations.DecodeErrsExactlyOnInvalidFamilies := by
  intro w
  refine ⟨(decode_error_iff w).trans (familyOf_mem_invalidFamilies_iff w), fun e h => ?_⟩
  rw [← familyOf_eq_ofNat]
  exact decode_error h

/-- Settles O8: the row of family 1111, read as its low twelve bits. -/
theorem decodeMoreSpecificKeepsTwelveBits : Obligations.DecodeMoreSpecificKeepsTwelveBits := by
  intro w h
  exact ⟨fieldAt 0 12 w, decode_of_family_fifteen h, fieldAt_zero_twelve_toNat w⟩

end Sys2Proof.Machine
end

section
/-! The ALU settings and the ALU (44_alu_combine.md R121, R123, R129, R134): which raw bit is which setting,
the ripple chain's carry in adder mode, in OR mode and under flood carry, and the source's testable
properties read off it. -/

namespace Sys2Proof

/-! ### The settings -/

/-- A settings byte's bits 4 to 0 are the settings, the topmost first (R121). -/
theorem settingsFromByte_eq (raw : Byte) :
    settingsFromByte raw =
      ⟨raw.getLsbD 4, raw.getLsbD 3, raw.getLsbD 2, raw.getLsbD 1, raw.getLsbD 0⟩ := by
  simp [settingsFromByte, settingsFrom]

/-- Masking a byte to its low five bits keeps those five. -/
theorem setWidth_five_and_mask (raw : Byte) : (raw &&& 0x1F).setWidth 5 = raw.setWidth 5 := by
  have hmask : (0x1F : Byte).setWidth 5 = BitVec.allOnes 5 := rfl
  rw [BitVec.setWidth_and, hmask, BitVec.and_allOnes]

/-- The bits above bit 4 do not reach the settings (R121). -/
theorem settingsFromByte_congr {raw raw' : Byte} (h : raw &&& 0x1F = raw' &&& 0x1F) :
    settingsFromByte raw = settingsFromByte raw' := by
  unfold settingsFromByte
  rw [← setWidth_five_and_mask raw, h, setWidth_five_and_mask]

/-- Settles O13: every combination arises from its own raw bits. -/
theorem settingsAreTheLowFiveBits : Obligations.SettingsAreTheLowFiveBits :=
  ⟨fun _ => rfl, settingsFromByte_eq, fun _ _ h => settingsFromByte_congr h,
    fun st => ⟨settingsBits st, settingsFrom_bits st⟩⟩

end Sys2Proof

namespace Sys2Proof.Machine

open Sys2Proof

/-! ### The outputs of `combine_N` -/

theorem invertIf_eq_not {n : Nat} (c : Bool) (v : BitVec n) :
    invertIf c v = if c then ~~~v else v := by
  rw [invertIf, BitVec.xor_allOnes]

theorem combine_sign_eq_msb {n : Nat} (a b : BitVec n) (st : AluSettings) :
    (combine a b st).sign = (combine a b st).result.msb := by
  rw [combine_sign, BitVec.msb_eq_getLsbD_last]

/-- The result and the carry-out determine all four outputs (R123 step 4). -/
theorem combine_eq_of_result_of_carry {n : Nat} {a b r : BitVec n} {st : AluSettings} {c : Bool}
    (hr : (combine a b st).result = r) (hc : (combine a b st).carry = c) :
    combine a b st = ⟨r, c, decide (r = 0), r.msb⟩ := by
  subst hr hc
  rw [← combine_zero, ← combine_sign_eq_msb]

/-! ### The ripple chain -/

/-- Majority by counting (R7). -/
theorem majority_eq_decide (p q r : Bool) :
    majority p q r = decide (2 ≤ p.toNat + q.toNat + r.toNat) := by
  cases p <;> cases q <;> cases r <;> rfl

/-- Settles O17: the chain is `carryAt` of the operands after inversion. -/
theorem combineIsTheRippleChain : Obligations.CombineIsTheRippleChain := by
  intro n a b st
  refine ⟨carryAt st (invertIf st.invertA a) (invertIf st.invertB b), rfl, fun i hi => ?_,
    combine_carry st a b, combine_zero st a b, combine_sign_eq_msb a b st⟩
  dsimp only
  rw [← majority_eq_decide, ← getLsbD_invertIf st.invertA a i hi, ← getLsbD_invertIf st.invertB b i hi]
  exact ⟨combine_result st a b i hi, rfl⟩

/-! ### Adder mode -/

/-- In adder mode the chain's carry is the carry of binary addition (R128). -/
theorem carryAt_adder {n : Nat} {st : AluSettings} (hflood : st.floodCarry = false)
    (hor : st.orMode = false) (a1 b1 : BitVec n) (k : Nat) :
    carryAt st a1 b1 k = BitVec.carry k a1 b1 st.carryIn := by
  induction k with
  | zero => exact BitVec.carry_zero.symm
  | succ k ih => simp [carryAt, cellCarry, majority, hflood, hor, ih, BitVec.carry_succ]

/-- Adder mode adds the operands after inversion and the carry-in (R128). -/
theorem combine_adder_result {n : Nat} {st : AluSettings} (hflood : st.floodCarry = false)
    (hor : st.orMode = false) (a b : BitVec n) :
    (combine a b st).result =
      invertIf st.invertA a + invertIf st.invertB b + (BitVec.ofBool st.carryIn).setWidth n := by
  apply BitVec.eq_of_getLsbD_eq
  intro i hi
  rw [combine_result st a b i hi, carryAt_adder hflood hor, BitVec.getLsbD_add_add_bool hi,
    ← Bool.xor_assoc]
  simp [cellSum, hor]

/-- Additive identity (R134). -/
theorem combine_zero_right {n : Nat} (a : BitVec n) :
    combine a 0 ⟨false, false, false, false, false⟩ = ⟨a, false, decide (a = 0), a.msb⟩ := by
  apply combine_eq_of_result_of_carry
  · rw [combine_adder_result rfl rfl]
    simp [invertIf]
  · rw [combine_carry, carryAt_adder rfl rfl]
    exact BitVec.carry_of_and_eq_zero BitVec.and_zero

/-- Inverting b and carrying in subtracts, by two's complement (R134). -/
theorem combine_sub_result {n : Nat} (a b : BitVec n) :
    (combine a b ⟨false, true, false, true, false⟩).result = a - b := by
  have hone : (BitVec.ofBool true).setWidth n = 1#n := by
    apply BitVec.eq_of_toNat_eq
    simp
  rw [combine_adder_result rfl rfl, hone, invertIf_eq_not, invertIf_eq_not, BitVec.sub_eq_add_neg,
    BitVec.neg_eq_not_add, ← BitVec.add_assoc]
  rfl

/-! ### Flood carry and OR mode -/

/-- Under flood carry every position but the first has an incoming carry (R131). -/
theorem carryAt_flood {n : Nat} {st : AluSettings} (hflood : st.floodCarry = true) (a1 b1 : BitVec n)
    {k : Nat} (hk : 0 < k) : carryAt st a1 b1 k = true := by
  cases k with
  | zero => cases hk
  | succ k => simp [carryAt, cellCarry, hflood]

/-- Flood carry forces the carry-out (R134). -/
theorem combine_flood_carry {n : Nat} {st : AluSettings} (hflood : st.floodCarry = true)
    (hn : 0 < n) (a b : BitVec n) : (combine a b st).carry = true := by
  rw [combine_carry, carryAt_flood hflood _ _ hn]

/-- In OR mode a carry needs one before it, so without a carry-in none arises (R129). -/
theorem carryAt_or_of_not_carryIn {n : Nat} {st : AluSettings} (hflood : st.floodCarry = false)
    (hcarry : st.carryIn = false) (hor : st.orMode = true) (a1 b1 : BitVec n) (k : Nat) :
    carryAt st a1 b1 k = false := by
  induction k with
  | zero => exact hcarry
  | succ k ih => simp [carryAt, cellCarry, hflood, hor, ih]

/-- OR mode without carry is the bitwise OR of the operands after inversion (R129). -/
theorem combine_or_result {n : Nat} {st : AluSettings} (hflood : st.floodCarry = false)
    (hcarry : st.carryIn = false) (hor : st.orMode = true) (a b : BitVec n) :
    (combine a b st).result = invertIf st.invertA a ||| invertIf st.invertB b := by
  apply BitVec.eq_of_getLsbD_eq
  intro i hi
  rw [combine_result st a b i hi, carryAt_or_of_not_carryIn hflood hcarry hor, BitVec.getLsbD_or]
  simp [cellSum, hor]

theorem combine_or_carry {n : Nat} {st : AluSettings} (hflood : st.floodCarry = false)
    (hcarry : st.carryIn = false) (hor : st.orMode = true) (a b : BitVec n) :
    (combine a b st).carry = false := by
  rw [combine_carry, carryAt_or_of_not_carryIn hflood hcarry hor]

/-- Settles O19: the identity and the subtraction from adder mode, then flood carry and OR mode. -/
theorem sourceAluProperties : Obligations.SourceAluProperties := by
  intro n a b
  have hwidth : 0 < n.bits := by cases n <;> decide
  refine ⟨combine_zero_right a, combine_sub_result a b,
    fun st hflood => combine_flood_carry hflood hwidth a b, fun invA invB => ⟨?_, ?_⟩⟩
  · rw [combine_or_result rfl rfl rfl, invertIf_eq_not, invertIf_eq_not]
  · exact combine_or_carry rfl rfl rfl a b

end Sys2Proof.Machine
end

section
/-! StackRead and StackWrite words (42_decode_jump_stack.md R103, R104): the two families' reading of a word and
its fields as numbers. -/

namespace Sys2Proof

theorem decodeRow_of_family_six {w : Word} (h : w.toNat / 4096 = 6) :
    decodeRow w = decodeStack .sread w := by
  rw [decodeRow, familyOf_toNat, h]
  rfl

theorem decodeRow_of_family_seven {w : Word} (h : w.toNat / 4096 = 7) :
    decodeRow w = decodeStack .swrite w := by
  rw [decodeRow, familyOf_toNat, h]
  rfl

/-- The delta as a left shift (R106). -/
theorem spDelta_eq_shiftLeft (c : BitVec 3) (v : BitVec 2) : spDelta c v = v.toNat <<< c.toNat :=
  (Nat.shiftLeft_eq v.toNat c.toNat).symm

/-- The delta of a word's two fields, `word[1:0] << word[4:2]`, in numbers (R106). -/
theorem spDelta_fieldAt (w : Word) :
    spDelta (fieldAt 2 3 w) (fieldAt 0 2 w) = (w.toNat % 4) <<< (w.toNat / 4 % 8) := by
  rw [spDelta_eq_shiftLeft, fieldAt_toNat, fieldAt_toNat, pow_zero, Nat.div_one]
  rfl

/-- A StackRead word's tagged value (R103). -/
theorem decode_of_family_six {w : Word} (h : w.toNat / 4096 = 6) :
    decode w = .ok (.stackRead (fieldAt 10 2 w)
      ⟨fieldAt 8 2 w, Config.stackShift .stackRead (fieldAt 5 3 w)⟩
      ((w.toNat % 4) <<< (w.toNat / 4 % 8))) := by
  rw [decode, decodeRow_of_family_six h, decodeStack, Instr.decoded, spDelta_fieldAt]

/-- A StackWrite word's tagged value (R104). -/
theorem decode_of_family_seven {w : Word} (h : w.toNat / 4096 = 7) :
    decode w = .ok (.stackWrite (fieldAt 10 2 w)
      ⟨fieldAt 8 2 w, Config.stackShift .stackWrite (fieldAt 5 3 w)⟩
      ((w.toNat % 4) <<< (w.toNat / 4 % 8))) := by
  rw [decode, decodeRow_of_family_seven h, decodeStack, Instr.decoded, spDelta_fieldAt]

end Sys2Proof

namespace Sys2Proof.Machine

open Sys2Proof

/-! ### The statements -/

/-- Settles O7: the rows of families 0110 and 0111, read field by field. -/
theorem decodeStackFields : Obligations.DecodeStackFields := by
  intro w
  constructor
  · intro h
    exact ⟨fieldAt 10 2 w, fieldAt 8 2 w, fieldAt 5 3 w, decode_of_family_six h,
      fieldAt_toNat 10 2 w, fieldAt_toNat 8 2 w, fieldAt_toNat 5 3 w⟩
  · intro h
    exact ⟨fieldAt 10 2 w, fieldAt 8 2 w, fieldAt 5 3 w, decode_of_family_seven h,
      fieldAt_toNat 10 2 w, fieldAt_toNat 8 2 w, fieldAt_toNat 5 3 w⟩

/-- Settles O16: the eighteen values by the 32 pairs of field values. -/
theorem stackDeltaValues : Obligations.StackDeltaValues := by
  have hvalues : ∀ c v, spDelta c v ≤ 384 ∧ spDelta c v ∈ spDeltas := by decide
  have hreached : ∀ d ∈ spDeltas, ∃ c v, spDelta c v = d := by decide
  exact ⟨fun c v => ⟨spDelta_eq_shiftLeft c v, hvalues c v⟩, hreached⟩

end Sys2Proof.Machine
end

section
/-! Decoding against encoding (30_encoding.md R62 to R66, R74): the decoder undoes the encoder on every
instruction, and the encoder undoes the decoder on every word but for the don't-care bits. -/

namespace Sys2Proof

/-! ### Every instruction -/

/-- The statement of `Laws.EncodeFamily` for every instruction. -/
theorem encodeFamily_statement (i : Instr) : Laws.EncodeFamily.Statement i := by
  cases i with
  | op a m st w u => exact Laws.EncodeFamily.op a m st w u
  | cmp a m st w u => exact Laws.EncodeFamily.cmp a m st w u
  | load d b m e w sh => exact Laws.EncodeFamily.load d b m e w sh
  | store r b m e w sh => exact Laws.EncodeFamily.store r b m e w sh
  | jump b sh inv k call => exact Laws.EncodeFamily.jump b sh inv k call
  | sread r b f c v => exact Laws.EncodeFamily.sread r b f c v
  | swrite r b f c v => exact Laws.EncodeFamily.swrite r b f c v
  | more x => exact Laws.EncodeFamily.more x
  | invalid5 => exact Laws.EncodeFamily.invalid5
  | invalid8 => exact Laws.EncodeFamily.invalid8
  | invalid9 => exact Laws.EncodeFamily.invalid9
  | invalidA => exact Laws.EncodeFamily.invalidA
  | invalidB => exact Laws.EncodeFamily.invalidB
  | invalidC => exact Laws.EncodeFamily.invalidC
  | invalidD => exact Laws.EncodeFamily.invalidD
  | invalidE => exact Laws.EncodeFamily.invalidE

/-- Every row's tagged value is one the opcode layout can produce (R164). -/
theorem Instr.wellFormed_eq_true (i : Instr) : i.wellFormed = true := (encodeFamily_statement i).2

/-- The encoding's family as a number (R62). -/
theorem encode_toNat_div (i : Instr) : (encode i).toNat / 4096 = i.family.toNat := by
  rw [← familyOf_toNat, (encodeFamily_statement i).1]

/-! ### Decoding what was encoded -/

/-- Format OP: each field is read where the writer put it, and each code is its mode's (R63, R67). -/
theorem decodeOperation_encodeOperation
    (mk : BitVec 2 → SourceMode → AluSettings → Bool → Bool → Instr) (f : BitVec 4) (a : BitVec 2)
    (m : SourceMode) (st : AluSettings) (w u : Bool) :
    decodeOperation mk (encodeOperation f a m st w u) = mk a m st w u := by
  simp (disch := decide) only [decodeOperation, encodeOperation, fieldAt, bitAt,
    BitVec.extractLsb'_append_eq_of_add_le, BitVec.extractLsb'_append_eq_of_le, BitVec.getLsbD_append]
  simp

/-- Format LD. -/
theorem decodeLoad_encode (d b : BitVec 2) (m : LoadMode) (e w : Bool) (sh : BitVec 3) :
    decodeLoad (encode (.load d b m e w sh)) = .load d b m e w sh := by
  simp (disch := decide) only [decodeLoad, encode, fieldAt, bitAt,
    BitVec.extractLsb'_append_eq_of_add_le, BitVec.extractLsb'_append_eq_of_le, BitVec.getLsbD_append]
  simp

/-- Format ST. -/
theorem decodeStore_encode (r b : BitVec 2) (m : StoreMode) (e w : Bool) (sh : BitVec 3) :
    decodeStore (encode (.store r b m e w sh)) = .store r b m e w sh := by
  simp (disch := decide) only [decodeStore, encode, fieldAt, bitAt,
    BitVec.extractLsb'_append_eq_of_add_le, BitVec.extractLsb'_append_eq_of_le, BitVec.getLsbD_append]
  simp

/-- Format J. -/
theorem decodeJump_encode (b : BitVec 2) (sh : BitVec 3) (inv : Bool) (k : BitVec 2) (call : Bool) :
    decodeJump (encode (.jump b sh inv k call)) = .jump b sh inv k call := by
  simp (disch := decide) only [decodeJump, encode, fieldAt, bitAt,
    BitVec.extractLsb'_append_eq_of_add_le, BitVec.extractLsb'_append_eq_of_le, BitVec.getLsbD_append]
  simp

/-- Format SK. -/
theorem decodeStack_encodeStack (mk : BitVec 2 → BitVec 2 → BitVec 3 → BitVec 3 → BitVec 2 → Instr)
    (f : BitVec 4) (r b : BitVec 2) (s c : BitVec 3) (v : BitVec 2) :
    decodeStack mk (encodeStack f r b s c v) = mk r b s c v := by
  simp (disch := decide) only [decodeStack, encodeStack, fieldAt,
    BitVec.extractLsb'_append_eq_of_add_le, BitVec.extractLsb'_append_eq_of_le]
  simp

/-- The decoder undoes the encoder on every instruction (R63). -/
theorem decodeRow_encode (i : Instr) : decodeRow (encode i) = i := by
  have hfamily := encode_toNat_div i
  cases i with
  | op a m st w u =>
    rw [decodeRow_of_family_zero hfamily]
    exact decodeOperation_encodeOperation .op 0 a m st w u
  | cmp a m st w u =>
    rw [decodeRow_of_family_one hfamily]
    exact decodeOperation_encodeOperation .cmp 1 a m st w u
  | load d b m e w sh =>
    rw [decodeRow_of_family_two hfamily, decodeLoad_encode]
  | store r b m e w sh =>
    rw [decodeRow_of_family_three hfamily, decodeStore_encode]
  | jump b sh inv k call =>
    rw [decodeRow_of_family_four hfamily, decodeJump_encode]
  | sread r b f c v =>
    rw [decodeRow_of_family_six hfamily]
    exact decodeStack_encodeStack .sread 6 r b f c v
  | swrite r b f c v =>
    rw [decodeRow_of_family_seven hfamily]
    exact decodeStack_encodeStack .swrite 7 r b f c v
  | more x =>
    rw [decodeRow_of_family_fifteen hfamily]
    exact congrArg Instr.more BitVec.extractLsb'_append_eq_right
  | invalid5 | invalid8 | invalid9 | invalidA | invalidB | invalidC | invalidD | invalidE => rfl

/-- Different instructions have different encodings (R63). -/
theorem encode_injective : Function.Injective encode :=
  Function.LeftInverse.injective decodeRow_encode

/-! ### Encoding what was decoded -/

theorem ofBool_bitAt (n : Nat) (w : Word) : BitVec.ofBool (bitAt n w) = fieldAt n 1 w := by
  apply BitVec.eq_of_getLsbD_eq
  intro i hi
  have hzero : i = 0 := by omega
  subst hzero
  simp [bitAt, fieldAt]

@[simp] theorem settingsBits_settingsFrom (raw : BitVec 5) : settingsBits (settingsFrom raw) = raw := by
  revert raw; decide

@[simp] theorem sourceModeBits_sourceModeOf (c : BitVec 2) : sourceModeBits (sourceModeOf c) = c := by
  revert c; decide

@[simp] theorem loadModeBits_loadModeOf (c : BitVec 2) : loadModeBits (loadModeOf c) = c := by
  revert c; decide

@[simp] theorem storeModeBit_storeModeOf (c : Bool) : storeModeBit (storeModeOf c) = c := by
  cases c <;> rfl

/-- A bit of a field is the word's bit at the field's place. -/
theorem getLsbD_fieldAt (lo len : Nat) (w : Word) (i : Nat) :
    (fieldAt lo len w).getLsbD i = (decide (i < len) && w.getLsbD (lo + i)) :=
  BitVec.getLsbD_extractLsb' lo len w i

/-- Format OP has no field at bit 0 (R63, R66). -/
theorem encodeOperation_fieldAt {w : Word} {f : BitVec 4} (h : familyOf w = f) :
    encodeOperation f (fieldAt 10 2 w) (sourceModeOf (fieldAt 8 2 w))
      (settingsFrom (fieldAt 3 5 w)) (bitAt 2 w) (bitAt 1 w) = w &&& 0xFFFE := by
  subst h
  apply BitVec.eq_of_getLsbD_eq
  intro i hi
  simp only [encodeOperation, familyOf, sourceModeBits_sourceModeOf, settingsBits_settingsFrom,
    ofBool_bitAt, BitVec.getLsbD_append, getLsbD_fieldAt, BitVec.getLsbD_and]
  interval_cases i <;> simp

/-- Format LD has no field at bit 0 (R63, R66). -/
theorem encode_decodeLoad {w : Word} (h : familyOf w = 2#4) : encode (decodeLoad w) = w &&& 0xFFFE := by
  apply BitVec.eq_of_getLsbD_eq
  intro i hi
  simp only [decodeLoad, encode, ← h, familyOf, loadModeBits_loadModeOf, ofBool_bitAt,
    BitVec.getLsbD_append, getLsbD_fieldAt, BitVec.getLsbD_and]
  interval_cases i <;> simp

/-- Format ST has no field at bits 6 and 0 (R63, R66). -/
theorem encode_decodeStore {w : Word} (h : familyOf w = 3#4) :
    encode (decodeStore w) = w &&& 0xFFBE := by
  apply BitVec.eq_of_getLsbD_eq
  intro i hi
  simp only [decodeStore, encode, ← h, familyOf, storeModeBit_storeModeOf, ofBool_bitAt,
    BitVec.getLsbD_append, getLsbD_fieldAt, BitVec.getLsbD_and]
  interval_cases i <;> simp

/-- Format J has no field at bits 9, 8 and 0 (R63, R66). -/
theorem encode_decodeJump {w : Word} (h : familyOf w = 4#4) : encode (decodeJump w) = w &&& 0xFCFE := by
  apply BitVec.eq_of_getLsbD_eq
  intro i hi
  simp only [decodeJump, encode, ← h, familyOf, ofBool_bitAt, BitVec.getLsbD_append, getLsbD_fieldAt,
    BitVec.getLsbD_and]
  interval_cases i <;> simp

/-- Format INV has no field but the family (R63, R66). -/
theorem encodeInvalid_familyOf (w : Word) : encodeInvalid (familyOf w) = w &&& 0xF000 := by
  apply BitVec.eq_of_getLsbD_eq
  intro i hi
  simp only [encodeInvalid, familyOf, BitVec.getLsbD_append, getLsbD_fieldAt, BitVec.getLsbD_and]
  interval_cases i <;> simp

/-- Adjoining fields joined are one field. -/
theorem fieldAt_append_fieldAt {lo len hi len' : Nat} (w : Word) (h : hi = lo + len) :
    fieldAt hi len' w ++ fieldAt lo len w = fieldAt lo (len' + len) w :=
  BitVec.extractLsb'_append_extractLsb'_eq_extractLsb' h

/-- All sixteen bits as one field. -/
theorem fieldAt_zero_sixteen (w : Word) : fieldAt 0 16 w = w &&& 0xFFFF := by
  have hmask : (0xFFFF : Word) = BitVec.allOnes 16 := rfl
  rw [hmask, BitVec.and_allOnes]
  exact BitVec.extractLsb'_eq_self

/-- The fields of format SK are all the word (R63). -/
theorem encodeStack_fieldAt {w : Word} {f : BitVec 4} (h : familyOf w = f) :
    encodeStack f (fieldAt 10 2 w) (fieldAt 8 2 w) (fieldAt 5 3 w) (fieldAt 2 3 w) (fieldAt 0 2 w) =
      w &&& 0xFFFF := by
  subst h
  rw [← fieldAt_zero_sixteen]
  simp (disch := decide) only [encodeStack, familyOf, fieldAt_append_fieldAt]

/-- Family 1111 keeps all the word (R110). -/
theorem family_append_fieldAt {w : Word} {f : BitVec 4} (h : familyOf w = f) :
    f ++ fieldAt 0 12 w = w &&& 0xFFFF := by
  subst h
  exact (fieldAt_append_fieldAt w rfl).trans (fieldAt_zero_sixteen w)

/-- A row that stands for an error encodes as its family alone (R111). -/
theorem encode_of_decoded_error {i : Instr} {e : BlockError} (h : i.decoded = .error e) :
    encode i = encodeInvalid i.family := by
  cases i with
  | invalid5 | invalid8 | invalid9 | invalidA | invalidB | invalidC | invalidD | invalidE => rfl
  | _ => cases h

/-- A word of an invalid family keeps its family alone (R111). -/
theorem encode_decodeRow_of_invalid {w : Word} (h : familyOf w ∈ invalidFamilies) :
    encode (decodeRow w) = w &&& 0xF000 := by
  obtain ⟨e, he⟩ := (Machine.decode_error_iff w).mpr h
  rw [encode_of_decoded_error he, decodeRow_family, encodeInvalid_familyOf]

/-- The families that are not invalid, by number (R111). -/
theorem valid_family_cases {f : BitVec 4} (h : f ∉ invalidFamilies) :
    f = 0 ∨ f = 1 ∨ f = 2 ∨ f = 3 ∨ f = 4 ∨ f = 6 ∨ f = 7 ∨ f = 15 := by
  revert f; decide

/-- An invalid family uses its own four bits only (R66). -/
theorem usedBits_of_invalid {f : BitVec 4} (h : f ∈ invalidFamilies) : usedBits f = 0xF000 := by
  revert f; decide

/-- The encoder undoes the decoder on the bits the word's family uses (R63, R66). -/
theorem encode_decodeRow (w : Word) : encode (decodeRow w) = w &&& usedBits (familyOf w) := by
  by_cases hinvalid : familyOf w ∈ invalidFamilies
  · rw [usedBits_of_invalid hinvalid, encode_decodeRow_of_invalid hinvalid]
  have hnumber {f : BitVec 4} (h : familyOf w = f) : w.toNat / 4096 = f.toNat := by
    rw [← familyOf_toNat, h]
  rcases valid_family_cases hinvalid with h | h | h | h | h | h | h | h
  · rw [decodeRow_of_family_zero (hnumber h), h]
    exact encodeOperation_fieldAt h
  · rw [decodeRow_of_family_one (hnumber h), h]
    exact encodeOperation_fieldAt h
  · rw [decodeRow_of_family_two (hnumber h), h]
    exact encode_decodeLoad h
  · rw [decodeRow_of_family_three (hnumber h), h]
    exact encode_decodeStore h
  · rw [decodeRow_of_family_four (hnumber h), h]
    exact encode_decodeJump h
  · rw [decodeRow_of_family_six (hnumber h), h]
    exact encodeStack_fieldAt h
  · rw [decodeRow_of_family_seven (hnumber h), h]
    exact encodeStack_fieldAt h
  · rw [decodeRow_of_family_fifteen (hnumber h), h]
    exact family_append_fieldAt h

/-- Every family uses its own four bits (R62, R66). -/
theorem familyOf_and_usedBits (w : Word) (f : BitVec 4) : familyOf (w &&& usedBits f) = familyOf w := by
  have hmask : ∀ f, familyOf (usedBits f) = BitVec.allOnes 4 := by decide
  rw [familyOf, fieldAt, BitVec.extractLsb'_and, ← fieldAt, ← familyOf, ← fieldAt, ← familyOf, hmask,
    BitVec.and_allOnes]

/-- Words that agree on the bits their family uses are of the same row, with the same fields (R66). -/
theorem decodeRow_eq_of_usedBits {w v : Word}
    (h : w &&& usedBits (familyOf w) = v &&& usedBits (familyOf w)) : decodeRow w = decodeRow v := by
  have hfamily : familyOf v = familyOf w := by
    rw [← familyOf_and_usedBits v (familyOf w), ← h, familyOf_and_usedBits]
  apply encode_injective
  rw [encode_decodeRow, encode_decodeRow, hfamily, h]

/-- The mask a table names for a word's family is the bits that family uses, if every entry is (R66). -/
theorem usedBits_of_mem {table : List (Nat × Word)} {w m : Word}
    (htable : ∀ p ∈ table, p.2 = usedBits (BitVec.ofNat 4 p.1)) (h : (w.toNat / 4096, m) ∈ table) :
    m = usedBits (familyOf w) := by
  rw [familyOf_eq_ofNat]
  exact htable _ h

/-! ### The statements -/

/-- Settles O10: the decoder undoes the encoder format by format; the table's numbering of 16 bits is the word
itself. -/
theorem decodeOfEncodeIsIdentity : Obligations.DecodeOfEncodeIsIdentity := by
  intro i _
  refine ⟨decodeRow_encode i, ?_⟩
  rw [decodeTableWord, if_pos (le_refl 16), tableWord_toNat, decodeRow_encode]

/-- Settles O11: the encoder's bits by format, against the masks of R66. -/
theorem encodeOfDecodeClearsUnnamedBits : Obligations.EncodeOfDecodeClearsUnnamedBits := by
  intro w m h
  rw [usedBits_of_mem (by decide) h, encode_decodeRow]

/-- Settles O9: words that agree on the used bits have the same encoding of their rows, and the encoder is
injective. -/
theorem decodeIgnoresUnnamedBits : Obligations.DecodeIgnoresUnnamedBits := by
  intro w v m h hagree
  have hm : m = usedBits (familyOf w) := usedBits_of_mem (by decide) h
  rw [decode, decode, decodeRow_eq_of_usedBits (hm ▸ hagree)]

/-- Settles O15: every row's tagged value is one the layout can produce. -/
theorem everyWordClassifies : Obligations.EveryWordClassifies := fun w =>
  (decodeRow w).wellFormed_eq_true

/-- Settles O14: both words read field by field; the destinations agree exactly at slot 0. -/
theorem comparisonDiffersInDestinationOnly : Obligations.ComparisonDiffersInDestinationOnly := by
  intro w h
  refine ⟨_, _, _, _, _, decode_of_family_zero h, decode_or_bit12 h, ?_⟩
  rw [decode_of_family_zero h, decode_or_bit12 h]
  simp

/-- Settles O12: sixteen fixed words, decoded by evaluation. -/
theorem writtenOutWordsDecode : Obligations.WrittenOutWordsDecode := by
  unfold Obligations.WrittenOutWordsDecode
  decide

end Sys2Proof
end

section
/-! The ALU's laws (44_alu_combine.md R126, R128 to R135; 70_reset_and_hazards.md R186): adder mode as numbers,
OR mode with the carry-in set, flood carry, the table of all 32 settings values, and two widths and two words
together. -/

namespace Sys2Proof.Machine

open Sys2Proof

/-! ### Adder mode as numbers (R128) -/

/-- The carry-out says whether the sum of the operands after inversion and the carry-in reached 2^N. -/
theorem combine_adder_carry {n : Nat} {st : AluSettings} (hflood : st.floodCarry = false)
    (hor : st.orMode = false) (a b : BitVec n) :
    (combine a b st).carry =
      decide (2 ^ n ≤
        (invertIf st.invertA a).toNat + (invertIf st.invertB b).toNat + st.carryIn.toNat) := by
  rw [combine_carry, carryAt_adder hflood hor, BitVec.carry_width]

/-- The result is that sum modulo 2^N. -/
theorem combine_adder_toNat {n : Nat} {st : AluSettings} (hflood : st.floodCarry = false)
    (hor : st.orMode = false) (a b : BitVec n) :
    (combine a b st).result.toNat =
      ((invertIf st.invertA a).toNat + (invertIf st.invertB b).toNat + st.carryIn.toNat) % 2 ^ n := by
  rw [combine_adder_result hflood hor, BitVec.toNat_add, BitVec.toNat_add, BitVec.toNat_setWidth,
    BitVec.toNat_ofBool, ← Nat.add_mod]

/-- Settles O18: the chain of adder mode is binary addition. -/
theorem adderModeAdds : Obligations.AdderModeAdds := by
  intro n a b st hflood hor
  dsimp only
  rw [← invertIf_eq_not, ← invertIf_eq_not]
  exact ⟨combine_adder_toNat hflood hor a b, combine_adder_carry hflood hor a b⟩

/-- A subtraction's carry-out says that there was no borrow (R135). -/
theorem combine_sub_carry {n : Nat} (a b : BitVec n) :
    (combine a b ⟨false, true, false, true, false⟩).carry = decide (b.toNat ≤ a.toNat) := by
  have hb := b.isLt
  have hnot : (invertIf true b).toNat = 2 ^ n - 1 - b.toNat := by
    rw [invertIf_eq_not, if_pos rfl, BitVec.toNat_not]
  have ha : (invertIf false a).toNat = a.toNat := rfl
  have hone : true.toNat = 1 := rfl
  rw [combine_adder_carry rfl rfl, hnot, ha, hone, decide_eq_decide]
  omega

/-- Settles O20: no borrow by `combine_sub_carry`, equality by the difference 0. -/
theorem subtractionComparesUnsigned : Obligations.SubtractionComparesUnsigned := by
  intro n a b
  refine ⟨combine_sub_carry a b, ?_⟩
  rw [combine_zero, combine_sub_result, decide_eq_decide]
  exact sub_eq_zero

/-! ### OR mode with the carry-in set (R130) -/

/-- In OR mode with the carry-in set the carry into a position is that of adding 1 to the AND of the operands:
it runs on while both bits are ones. -/
theorem carryAt_or_of_carryIn {n : Nat} {st : AluSettings} (hflood : st.floodCarry = false)
    (hcarry : st.carryIn = true) (hor : st.orMode = true) (a1 b1 : BitVec n) (k : Nat) :
    carryAt st a1 b1 k = BitVec.carry k (a1 &&& b1) 0#n true := by
  induction k with
  | zero => rw [BitVec.carry_zero]; exact hcarry
  | succ k ih => simp [carryAt, cellCarry, hflood, hor, ih, BitVec.carry_succ, Bool.atLeastTwo]

/-- A number XORed with its successor has the carries of the increment as its bits. -/
theorem getLsbD_xor_add_one {n : Nat} (m : BitVec n) {i : Nat} (hi : i < n) :
    (m ^^^ (m + 1)).getLsbD i = BitVec.carry i m 0#n true := by
  have hone : (1 : BitVec n) = (BitVec.ofBool true).setWidth n := by
    apply BitVec.eq_of_toNat_eq
    simp
  have hadd := BitVec.getLsbD_add_add_bool hi m 0#n true
  rw [BitVec.add_zero, ← hone] at hadd
  rw [BitVec.getLsbD_xor, hadd]
  simp

/-- OR mode with carry flips the OR where the carry reaches (R130). -/
theorem combine_or_carryIn_result {n : Nat} {st : AluSettings} (hflood : st.floodCarry = false)
    (hcarry : st.carryIn = true) (hor : st.orMode = true) (a b : BitVec n) :
    (combine a b st).result =
      (invertIf st.invertA a ||| invertIf st.invertB b) ^^^
        ((invertIf st.invertA a &&& invertIf st.invertB b) ^^^
          ((invertIf st.invertA a &&& invertIf st.invertB b) + 1)) := by
  apply BitVec.eq_of_getLsbD_eq
  intro i hi
  rw [combine_result st a b i hi, carryAt_or_of_carryIn hflood hcarry hor, BitVec.getLsbD_xor,
    getLsbD_xor_add_one _ hi, BitVec.getLsbD_or, cellSum, if_pos hor]

/-- The carry reaches the end when both operands after inversion are all ones (R130). -/
theorem combine_or_carryIn_carry {n : Nat} {st : AluSettings} (hflood : st.floodCarry = false)
    (hcarry : st.carryIn = true) (hor : st.orMode = true) (a b : BitVec n) :
    (combine a b st).carry =
      decide (invertIf st.invertA a = BitVec.allOnes n ∧ invertIf st.invertB b = BitVec.allOnes n) := by
  rw [combine_carry, carryAt_or_of_carryIn hflood hcarry hor, BitVec.carry_width, decide_eq_decide,
    ← BitVec.and_eq_allOnes_iff, ← BitVec.toNat_inj, BitVec.toNat_allOnes]
  have hlt := (invertIf st.invertA a &&& invertIf st.invertB b).isLt
  have hzero : (0#n).toNat = 0 := by simp
  have hone : true.toNat = 1 := rfl
  rw [hzero, hone]
  omega

/-- Settles O21: the carry of OR mode is the increment's of the AND. -/
theorem orModeWithCarry : Obligations.OrModeWithCarry := by
  intro n a b invA invB
  dsimp only
  rw [← invertIf_eq_not, ← invertIf_eq_not]
  exact ⟨combine_or_carryIn_result rfl rfl rfl a b, combine_or_carryIn_carry rfl rfl rfl a b⟩

/-! ### Flood carry (R131, R132) -/

/-- The carries flood carry presents: 1 at every position, but at 0 the carry-in. -/
def floodCarries (n : Nat) (carryIn : Bool) : BitVec n :=
  BitVec.allOnes n - 1 + (if carryIn then 1 else 0)

theorem floodCarries_true (n : Nat) : floodCarries n true = BitVec.allOnes n :=
  BitVec.sub_add_cancel _ _

theorem floodCarries_false (n : Nat) : floodCarries n false = ~~~1#n := by
  rw [← BitVec.allOnes_sub_eq_not]
  exact BitVec.add_zero _

theorem getLsbD_floodCarries {n : Nat} (carryIn : Bool) {i : Nat} (hi : i < n) :
    (floodCarries n carryIn).getLsbD i = if i = 0 then carryIn else true := by
  cases carryIn with
  | true => simp [floodCarries_true, hi]
  | false => simp [floodCarries_false, hi]

/-- Under flood carry the sum bits are XORed with the flood's carries. -/
theorem combine_flood_result {n : Nat} {st : AluSettings} (hflood : st.floodCarry = true)
    (a b : BitVec n) :
    (combine a b st).result =
      (if st.orMode then invertIf st.invertA a ||| invertIf st.invertB b
        else invertIf st.invertA a ^^^ invertIf st.invertB b) ^^^ floodCarries n st.carryIn := by
  apply BitVec.eq_of_getLsbD_eq
  intro i hi
  have hcarry : carryAt st (invertIf st.invertA a) (invertIf st.invertB b) i =
      if i = 0 then st.carryIn else true := by
    by_cases h : i = 0
    · subst h; rfl
    · rw [if_neg h, carryAt_flood hflood _ _ (Nat.pos_of_ne_zero h)]
  rw [combine_result st a b i hi, hcarry, BitVec.getLsbD_xor, getLsbD_floodCarries _ hi, cellSum]
  cases st.orMode <;> simp

/-- Settles O22: the flood's carries, by the carry-in. -/
theorem floodCarryResult : Obligations.FloodCarryResult := by
  intro n a b st hflood
  have hwidth : 0 < n.bits := by cases n <;> decide
  dsimp only
  rw [← invertIf_eq_not, ← invertIf_eq_not]
  exact ⟨combine_flood_result hflood a b, combine_flood_carry hflood hwidth a b⟩

/-! ### The table of all 32 settings values (R133) -/

theorem invertIf_true {n : Nat} (v : BitVec n) : invertIf true v = ~~~v := invertIf_eq_not true v

theorem invertIf_false {n : Nat} (v : BitVec n) : invertIf false v = v := by
  rw [invertIf_eq_not, if_neg Bool.false_ne_true]

/-- The complement in the ring of N-bit numbers. -/
theorem not_eq_neg_sub_one {n : Nat} (v : BitVec n) : ~~~v = -v - 1 := by
  rw [BitVec.neg_eq_not_add]
  exact (BitVec.add_sub_cancel _ _).symm

theorem ofBool_setWidth {n : Nat} (c : Bool) :
    (BitVec.ofBool c).setWidth n = if c then 1 else 0 := by
  apply BitVec.eq_of_toNat_eq
  cases c <;> simp

/-- The eight rows of adder mode: a complement is `-v - 1`, so each row is an identity of the ring of N-bit
numbers. -/
theorem table_adder_result {n : Nat} (a b : BitVec n) (invA invB cin : Bool) :
    (combine a b ⟨invA, invB, false, cin, false⟩).result =
      settingsTableResult a b ⟨invA, invB, false, cin, false⟩ := by
  rw [combine_adder_result rfl rfl, ofBool_setWidth]
  cases invA <;> cases invB <;> cases cin <;>
    simp only [invertIf_true, invertIf_false, not_eq_neg_sub_one, settingsTableResult, reduceIte,
      Bool.false_eq_true] <;>
    ring

/-- The four rows of OR mode without carry. -/
theorem table_or_result {n : Nat} (a b : BitVec n) (invA invB : Bool) :
    (combine a b ⟨invA, invB, false, false, true⟩).result =
      settingsTableResult a b ⟨invA, invB, false, false, true⟩ := by
  rw [combine_or_result rfl rfl rfl]
  cases invA <;> cases invB <;>
    simp only [invertIf_true, invertIf_false, settingsTableResult, BitVec.not_and]

/-- The four rows of OR mode with the carry-in set. -/
theorem table_or_carryIn_result {n : Nat} (a b : BitVec n) (invA invB : Bool) :
    (combine a b ⟨invA, invB, false, true, true⟩).result =
      settingsTableResult a b ⟨invA, invB, false, true, true⟩ := by
  rw [combine_or_carryIn_result rfl rfl rfl]
  cases invA <;> cases invB <;>
    simp only [invertIf_true, invertIf_false, settingsTableResult, BitVec.not_and, BitVec.not_or]

/-- Without carry-in the flood's carries invert every bit but bit 0, which is to invert all and then bit 0. -/
theorem xor_floodCarries {n : Nat} (v : BitVec n) (cin : Bool) :
    v ^^^ floodCarries n cin = if cin then ~~~v else ~~~v ^^^ 1 := by
  cases cin with
  | true => rw [floodCarries_true, BitVec.xor_allOnes, if_pos rfl]
  | false =>
    rw [floodCarries_false, ← BitVec.not_xor_right, BitVec.not_xor_left]
    rfl

/-- The sixteen rows of flood carry: the inverted XOR or OR, with the operands' own inversions moved out of the
XOR and into the AND of De Morgan's law. -/
theorem table_flood_result {n : Nat} (a b : BitVec n) (invA invB cin orMode : Bool) :
    (combine a b ⟨invA, invB, true, cin, orMode⟩).result =
      settingsTableResult a b ⟨invA, invB, true, cin, orMode⟩ := by
  rw [combine_flood_result rfl, xor_floodCarries]
  cases orMode <;> cases invA <;> cases invB <;> cases cin <;>
    simp only [invertIf_true, invertIf_false, settingsTableResult, reduceIte, Bool.false_eq_true,
      BitVec.not_or, BitVec.not_not, ← BitVec.not_xor_left, ← BitVec.not_xor_right]

/-- The eight carries of adder mode. -/
theorem table_adder_carry {n : Nat} (hn : 0 < n) (a b : BitVec n) (invA invB cin : Bool) :
    (combine a b ⟨invA, invB, false, cin, false⟩).carry =
      settingsTableCarry a b ⟨invA, invB, false, cin, false⟩ := by
  have ha := a.isLt
  have hb := b.isLt
  have hpow : 1 < 2 ^ n := Nat.one_lt_two_pow hn.ne'
  rw [combine_adder_carry rfl rfl]
  cases invA <;> cases invB <;> cases cin <;>
    simp only [invertIf_true, invertIf_false, BitVec.toNat_not, settingsTableCarry, Bool.toNat_true,
      Bool.toNat_false, decide_eq_decide] <;>
    omega

/-- All ones after inversion is 0 before it. -/
theorem not_eq_allOnes {n : Nat} (v : BitVec n) : ~~~v = BitVec.allOnes n ↔ v = 0 := by
  rw [BitVec.not_eq_comm, BitVec.not_allOnes]
  exact Iff.rfl

/-- The four carries of OR mode with the carry-in set. -/
theorem table_or_carryIn_carry {n : Nat} (a b : BitVec n) (invA invB : Bool) :
    (combine a b ⟨invA, invB, false, true, true⟩).carry =
      settingsTableCarry a b ⟨invA, invB, false, true, true⟩ := by
  rw [combine_or_carryIn_carry rfl rfl rfl]
  cases invA <;> cases invB <;>
    simp only [invertIf_true, invertIf_false, settingsTableCarry, not_eq_allOnes]

/-- Settles O23: the rows of each mode by that mode's closed form. -/
theorem allSettingsTable : Obligations.AllSettingsTable := by
  intro n a b ⟨invA, invB, flood, cin, orMode⟩
  have hwidth : 0 < n.bits := by cases n <;> decide
  match flood, orMode, cin with
  | true, _, _ =>
    exact ⟨table_flood_result a b invA invB _ _, combine_flood_carry rfl hwidth a b⟩
  | false, false, _ =>
    exact ⟨table_adder_result a b invA invB _, table_adder_carry hwidth a b invA invB _⟩
  | false, true, false =>
    exact ⟨table_or_result a b invA invB, combine_or_carry rfl rfl rfl a b⟩
  | false, true, true =>
    exact ⟨table_or_carryIn_result a b invA invB, table_or_carryIn_carry a b invA invB⟩

/-! ### Two widths, two words (R126, R186) -/

theorem getLsbD_lowByte (v : Word) {i : Nat} (hi : i < 8) : (lowByte v).getLsbD i = v.getLsbD i := by
  simp [lowByte, hi]

theorem invertIf_lowByte (c : Bool) (v : Word) : invertIf c (lowByte v) = lowByte (invertIf c v) := by
  apply BitVec.eq_of_getLsbD_eq
  intro i hi
  rw [getLsbD_invertIf c _ i hi, getLsbD_lowByte _ hi, getLsbD_lowByte _ hi,
    getLsbD_invertIf c v i (by omega)]

/-- The chain on the low bytes has the carries of the chain on the words (R126). -/
theorem carryAt_lowByte (st : AluSettings) (a1 b1 : Word) {k : Nat} (hk : k ≤ 8) :
    carryAt st (lowByte a1) (lowByte b1) k = carryAt st a1 b1 k := by
  induction k with
  | zero => rfl
  | succ k ih =>
    have hlt : k < 8 := hk
    rw [carryAt, carryAt, ih hlt.le, getLsbD_lowByte a1 hlt, getLsbD_lowByte b1 hlt]

/-- Settles O24: bit by bit, the same cells with the same carries. -/
theorem bothWidthsAgreeOnLowByte : Obligations.BothWidthsAgreeOnLowByte := by
  intro a b st
  apply BitVec.eq_of_getLsbD_eq
  intro i hi
  rw [getLsbD_lowByte _ hi, combine_result st _ _ i hi, combine_result st a b i (by omega),
    invertIf_lowByte, invertIf_lowByte, carryAt_lowByte st _ _ hi.le, getLsbD_lowByte _ hi,
    getLsbD_lowByte _ hi]

/-- Two words joined, as a number. -/
theorem toNat_append_words (hi lo : Word) : (hi ++ lo).toNat = hi.toNat * 2 ^ 16 + lo.toNat := by
  rw [BitVec.toNat_append, ← Nat.shiftLeft_add_eq_or_of_lt lo.isLt, Nat.shiftLeft_eq]

/-- Addition as numbers, with the carry-in given (R128). -/
theorem combine_add_toNat (a b : Word) (c : Bool) :
    (combine a b ⟨false, false, false, c, false⟩).result.toNat =
        (a.toNat + b.toNat + c.toNat) % 65536 ∧
      (combine a b ⟨false, false, false, c, false⟩).carry =
        decide (65536 ≤ a.toNat + b.toNat + c.toNat) :=
  ⟨combine_adder_toNat rfl rfl a b, combine_adder_carry rfl rfl a b⟩

/-- Settles O25: schoolbook addition in two digits of 16 bits. -/
theorem chainedCarryAddsThirtyTwoBits : Obligations.ChainedCarryAddsThirtyTwoBits := by
  intro aHi aLo bHi bLo lo hi
  obtain ⟨hlo, hcarry⟩ := combine_add_toNat aLo bLo false
  obtain ⟨hhi, hout⟩ := combine_add_toNat aHi bHi lo.carry
  have hone : lo.carry.toNat = (aLo.toNat + bLo.toNat) / 65536 := by
    have := aLo.isLt
    have := bLo.isLt
    by_cases h : 65536 ≤ aLo.toNat + bLo.toNat
    · rw [show lo.carry = true from hcarry.trans (decide_eq_true h), Bool.toNat_true]
      omega
    · rw [show lo.carry = false from hcarry.trans (decide_eq_false h), Bool.toNat_false]
      omega
  rw [hone] at hhi hout
  constructor
  · apply BitVec.eq_of_toNat_eq
    rw [BitVec.toNat_add, toNat_append_words, toNat_append_words, toNat_append_words]
    rw [show lo.result.toNat = _ from hlo, show hi.result.toNat = _ from hhi, Bool.toNat_false]
    omega
  · rw [show hi.carry = _ from hout, decide_eq_decide, toNat_append_words, toNat_append_words]
    omega

end Sys2Proof.Machine
end

section
/-! Block operations as the driver calls them (45_execute_contract.md R140, R152; 10_state.md R18 to R21;
20_memory.md R42, R46): which err and how, and what each leaves unchanged. -/

namespace Sys2Proof.Machine

open Sys2Proof

/-! ### Flags and memory, as the statements put them -/

/-- Settles O28: by index, 0 to 3, and 4 up. -/
theorem flagGetContract : Obligations.FlagGetContract := fun s w =>
  ⟨rfl, rfl, rfl, rfl, fun _ h => s.flagGet_of_ge w h⟩

theorem State.sameRegs_setSlot (s : State) (w : Width) (f : Flags) : SameRegs s (s.setSlot w f) :=
  fun i => s.reg_setSlot w f i

/-- Replacing one width's flags leaves the other's alone (R21). -/
theorem State.slot_setSlot_ne (s : State) {w u : Width} (f : Flags) (h : u ≠ w) :
    (s.setSlot w f).slot u = s.slot u := by
  rw [State.slot_setSlot, if_neg h]

/-- Settles O29: a flag write is one slot's replacement; the call of either width answers the ALU's outputs with
the flag write the caller selects. -/
theorem aluFlagWriteIsOptionalAndWhole : Obligations.AluFlagWriteIsOptionalAndWhole := by
  refine ⟨fun s w c z sg => ?_, fun s a b st =>
    ⟨⟨rfl, fun _ => rfl⟩, ⟨rfl, fun _ => rfl⟩⟩⟩
  rw [State.flagsWrite_eq]
  refine ⟨?_, fun u hu => s.slot_setSlot_ne _ hu, s.sameRegs_setSlot w _, s.setSlot_mem w _⟩
  rw [State.slot_setSlot, if_pos rfl]

/-- Settles O31: a byte by the rule of 8-bit writes, the big-endian twin by that of 16-bit writes. -/
theorem byteAndBigEndianAccess : Obligations.ByteAndBigEndianAccess := fun s a v y =>
  ⟨s.memRead8_memWrite8_same a y, fun _ h => s.memRead8_memWrite8_ne y h, rfl,
    s.memRead8_memWrite16_first .big a v, s.memRead8_memWrite16_second .big a v,
    s.sameMemoryBut_memWrite16 .big a v, s.memRead16_memWrite16_same .big a v⟩

/-- Settles O35: slot 0 and flag index 0 are constants of the read operations. -/
theorem constantsReadTheSame : Obligations.ConstantsReadTheSame := fun _ => ⟨rfl, fun _ => rfl⟩

/-- Flags alike read alike, a width's slot as a whole. -/
theorem SameFlags.slot_eq {s t : State} (h : SameFlags s t) (u : Width) : t.slot u = s.slot u := by
  obtain ⟨h8, h16⟩ := h
  cases u
  · exact h8
  · exact h16

/-- Flags alike answer `flag_get` alike, errors included. -/
theorem SameFlags.flagGet_eq {s t : State} (h : SameFlags s t) (j : Nat) (u : Width) :
    t.flagGet j u = s.flagGet j u := by
  rw [State.flagGet, State.flagGet, State.flag, State.flag, h.slot_eq]

/-! ### Errors -/

/-- When a block operation errs, and how: an index of 4 or more, or a word `decode` errs on (R161 to R163). -/
theorem State.callOp_error_iff (s : State) (op : BlockOp) (e : BlockError) :
    s.callOp op = .error e ↔
      (∃ i, 4 ≤ i ∧ e = .invalidRegister i ∧ (op = .regRead i ∨ ∃ v, op = .regWrite i v)) ∨
      (∃ i w, 4 ≤ i ∧ e = .invalidFlag i ∧ (op = .flagGet i w ∨ ∃ v, op = .flagSet i v w)) ∨
      ∃ w, op = .decode w ∧ decode w = .error e := by
  cases op with
  | decode w => cases h : decode w <;> simp [State.callOp, Except.map, h]
  | regRead i =>
    rcases Nat.lt_or_ge i 4 with h | h
    · simp [State.callOp, s.regRead_of_lt h, Except.map, h]
    · simp [State.callOp, s.regRead_of_ge h, Except.map, h, eq_comm]
  | regWrite i v =>
    rcases Nat.lt_or_ge i 4 with h | h
    · simp [State.callOp, s.regWrite_of_lt v h, Except.map, h]
    · simp [State.callOp, s.regWrite_of_ge v h, Except.map, h, eq_comm]
  | flagGet i w =>
    rcases Nat.lt_or_ge i 4 with h | h
    · simp [State.callOp, s.flagGet_of_lt w h, Except.map, h]
    · simp [State.callOp, s.flagGet_of_ge w h, Except.map, h, eq_comm]
  | flagSet i v w =>
    rcases Nat.lt_or_ge i 4 with h | h
    · simp [State.callOp, s.flagSet_of_lt v w h, Except.map, h]
    · simp [State.callOp, s.flagSet_of_ge v w h, Except.map, h, eq_comm]
  | combine n a b st slot => simp [State.callOp]
  | memRead8 a => simp [State.callOp]
  | memRead16 o a => simp [State.callOp]
  | memWrite8 a v => simp [State.callOp]
  | memWrite16 o a v => simp [State.callOp]

/-- The word's families and payload of a `decode` error, by number (R111). -/
theorem decode_error_iff_family (w : Word) (e : BlockError) :
    decode w = .error e ↔
      w.toNat / 4096 ∈ [5, 8, 9, 10, 11, 12, 13, 14] ∧
        e = .invalidOpcode (BitVec.ofNat 4 (w.toNat / 4096)) := by
  obtain ⟨hfamily, hpayload⟩ := decodeErrsExactlyOnInvalidFamilies w
  constructor
  · exact fun h => ⟨hfamily.mp ⟨e, h⟩, hpayload e h⟩
  · rintro ⟨hmem, rfl⟩
    obtain ⟨e, he⟩ := hfamily.mpr hmem
    rw [he, hpayload e he]

/-- As a step a block operation faults exactly with its error (R150). -/
theorem State.perform_fault_iff (s : State) (op : BlockOp) (f : Fault) :
    s.perform op = .fault f ↔ ∃ e, s.callOp op = .error e ∧ f = faultOf e := by
  rcases s.perform_cases op with ⟨r, t, hcall, hstep⟩ | ⟨e, hcall, hstep⟩
  · simp [hcall, hstep]
  · simp [hcall, hstep, eq_comm]

theorem State.perform_ne_refused (s : State) (op : BlockOp) (x : Refusal) :
    s.perform op ≠ .refused x := by
  rcases s.perform_cases op with ⟨r, t, -, hstep⟩ | ⟨e, -, hstep⟩ <;> simp [hstep]

/-- Settles O38: the three kinds of error, each carried into its fault. -/
theorem blockOperationErrors : Obligations.BlockOperationErrors := by
  refine fun s op => ⟨fun f => ?_, s.perform_ne_refused op⟩
  rw [s.perform_fault_iff op f]
  simp only [s.callOp_error_iff op, decode_error_iff_family]
  constructor
  · rintro ⟨e, ⟨i, hi, rfl, hop⟩ | ⟨i, w, hi, rfl, hop⟩ | ⟨w, hop, hw, rfl⟩, rfl⟩
    · exact .inl ⟨i, hi, rfl, hop⟩
    · exact .inr (.inl ⟨i, w, hi, rfl, hop⟩)
    · exact .inr (.inr ⟨w, hop, hw, rfl⟩)
  · rintro (⟨i, hi, rfl, hop⟩ | ⟨i, w, hi, rfl, hop⟩ | ⟨w, hop, hw, rfl⟩)
    · exact ⟨_, .inl ⟨i, hi, rfl, hop⟩, rfl⟩
    · exact ⟨_, .inr (.inl ⟨i, w, hi, rfl, hop⟩), rfl⟩
    · exact ⟨_, .inr (.inr ⟨w, hop, hw, rfl⟩), rfl⟩

/-! ### What a block operation leaves unchanged -/

/-- A step that performs a block operation leaves the operation's state, with its answer on the port. -/
theorem State.perform_next {s t : State} {op : BlockOp} (h : s.perform op = .next t) :
    ∃ r u, s.callOp op = .ok (r, u) ∧ t = { u with reply := r } := by
  rcases s.perform_cases op with ⟨r, u, hcall, hstep⟩ | ⟨e, -, hstep⟩
  · exact ⟨r, u, hcall, Host.Outcome.next.inj (h.symm.trans hstep)⟩
  · cases h.symm.trans hstep

section

variable {s t : State} {op : BlockOp} {r : Reply} (h : s.callOp op = .ok (r, t))

include h

/-- Registers change by `reg_write` only, and there no other slot (R13). -/
theorem State.callOp_regs : SameRegs s t ∨
    ∃ i v, op = .regWrite i v ∧ ∀ j : BitVec 2, j.toNat ≠ i → t.reg j = s.reg j := by
  obtain rfl | ⟨i, v, hop, hi, rfl⟩ | ⟨i, v, w, -, -, rfl⟩ | ⟨n, a, b, st, w, f, -, rfl⟩ | ⟨a, v, -, rfl⟩ |
    ⟨o, a, v, -, rfl⟩ := State.callOp_cases h
  · exact .inl fun _ => rfl
  · refine .inr ⟨i, v, hop, fun j hj => s.reg_setReg_ne v fun hji => hj ?_⟩
    rw [hji, BitVec.toNat_ofNat]
    exact Nat.mod_eq_of_lt hi
  · exact .inl (s.sameRegs_setFlag w _ v)
  · exact .inl (s.sameRegs_setSlot w f)
  · exact .inl (s.reg_memWrite8 a v)
  · exact .inl (s.reg_memWrite16 o a v)

/-- Flags change by `flag_set` only, and there no other flag, or by the ALU's flag write, and there no other
width's (R20, R21). -/
theorem State.callOp_flags : SameFlags s t ∨
    (∃ i v w, op = .flagSet i v w ∧ ∀ j u, (j ≠ i ∨ u ≠ w) → t.flagGet j u = s.flagGet j u) ∨
    ∃ n a b st w, op = .combine n a b st (some w) ∧ ∀ u, u ≠ w → t.slot u = s.slot u := by
  obtain rfl | ⟨i, v, -, -, rfl⟩ | ⟨i, v, w, hop, hi, rfl⟩ | ⟨n, a, b, st, w, f, hop, rfl⟩ | ⟨a, v, -, rfl⟩ |
    ⟨o, a, v, -, rfl⟩ := State.callOp_cases h
  · exact .inl ⟨rfl, rfl⟩
  · exact .inl (s.sameFlags_setReg _ v)
  · exact .inr (.inl ⟨i, v, w, hop, fun j u hju => s.flagGet_setFlag_ne v w u hi hju⟩)
  · exact .inr (.inr ⟨n, a, b, st, w, hop, fun u hu => s.slot_setSlot_ne f hu⟩)
  · exact .inl ⟨rfl, rfl⟩
  · exact .inl ⟨s.memWrite16_f8 o a v, s.memWrite16_f16 o a v⟩

/-- Memory changes by a memory write only, and there no other byte (R42, R44, R46). -/
theorem State.callOp_memory : SameMemory s t ∨
    (∃ a v, op = .memWrite8 a v ∧ ∀ x, x ≠ a → t.memRead8 x = s.memRead8 x) ∨
    ∃ o a v, op = .memWrite16 o a v ∧ SameMemoryBut a (a + 1) s t := by
  obtain rfl | ⟨i, v, -, -, rfl⟩ | ⟨i, v, w, -, -, rfl⟩ | ⟨n, a, b, st, w, f, -, rfl⟩ | ⟨a, v, hop, rfl⟩ |
    ⟨o, a, v, hop, rfl⟩ := State.callOp_cases h
  · exact .inl fun _ => rfl
  · exact .inl (s.memRead8_setReg _ v)
  · exact .inl (s.memRead8_setSlot w _)
  · exact .inl (s.memRead8_setSlot w f)
  · exact .inr (.inl ⟨a, v, hop, fun x hx => s.memRead8_memWrite8_ne v hx⟩)
  · exact .inr (.inr ⟨o, a, v, hop, s.sameMemoryBut_memWrite16 o a v⟩)

/-- The driver's own side stays (log 1, log 36). -/
theorem State.callOp_driver :
    t.pc = s.pc ∧ t.sp = s.sp ∧ t.inputs = s.inputs ∧ t.pending = s.pending := by
  obtain rfl | ⟨i, v, -, -, rfl⟩ | ⟨i, v, w, -, -, rfl⟩ | ⟨n, a, b, st, w, f, -, rfl⟩ | ⟨a, v, -, rfl⟩ |
    ⟨o, a, v, -, rfl⟩ := State.callOp_cases h <;>
    simp [State.setFlag]

end

/-- Settles O39: registers, flags and memory each by what can change them, and the driver's side. -/
theorem blockOperationFrame : Obligations.BlockOperationFrame := by
  intro s t op h
  obtain ⟨r, u, hcall, rfl⟩ := State.perform_next h
  refine ⟨fun hop => ?_, fun hset hcomb => ?_, fun h8 h16 => ?_, ?_, ?_, ?_, ?_, ?_,
    State.callOp_driver (t := u) hcall⟩
  · obtain hregs | ⟨i, v, h, -⟩ := State.callOp_regs hcall
    · exact hregs
    · exact absurd h (hop i v)
  · obtain hflags | ⟨i, v, w, h, -⟩ | ⟨n, a, b, st, w, h, -⟩ := State.callOp_flags hcall
    · exact hflags
    · exact absurd h (hset i v w)
    · exact absurd h (hcomb n a b st w)
  · obtain hmem | ⟨a, v, h, -⟩ | ⟨o, a, v, h, -⟩ := State.callOp_memory hcall
    · exact hmem
    · exact absurd h (h8 a v)
    · exact absurd h (h16 o a v)
  · rintro i v rfl
    obtain hregs | ⟨i, v, h, hframe⟩ := State.callOp_regs hcall
    · exact fun j _ => hregs j
    · cases h; exact hframe
  · rintro i v w rfl
    obtain hflags | ⟨i, v, w, h, hframe⟩ | ⟨n, a, b, st, w, h, -⟩ := State.callOp_flags hcall
    · exact fun j x _ => hflags.flagGet_eq j x
    · cases h; exact hframe
    · cases h
  · rintro n a b st w rfl
    obtain hflags | ⟨i, v, w, h, -⟩ | ⟨n, a, b, st, w, h, hframe⟩ := State.callOp_flags hcall
    · exact fun x _ => hflags.slot_eq x
    · cases h
    · cases h; exact hframe
  · rintro a v rfl
    obtain hmem | ⟨a, v, h, hframe⟩ | ⟨o, a, v, h, -⟩ := State.callOp_memory hcall
    · exact fun x _ => hmem x
    · cases h; exact hframe
    · cases h
  · rintro o a v rfl
    obtain hmem | ⟨a, v, h, -⟩ | ⟨o, a, v, h, hframe⟩ := State.callOp_memory hcall
    · exact fun x _ _ => hmem x
    · cases h
    · cases h; exact hframe

end Sys2Proof.Machine
end

section
/-! Operation and Comparison words at execution (45_execute_contract.md R141 to R145, 70_reset_and_hazards.md
R183): the operand by source mode, then result, flags and frame of the reference execution. -/

namespace Sys2Proof.Machine

open Sys2Proof

/-! ### The operand (R141) -/

/-- The 8-bit big-endian operand has one of the two bytes as its low byte (log 8). -/
theorem lowByte_bOperand_memoryBE (s : State) :
    lowByte (s.bOperand .memoryBE true) = s.memRead8 s.inputs.address ∨
      lowByte (s.bOperand .memoryBE true) = s.memRead8 (s.inputs.address + 1) := by
  unfold State.bOperand
  dsimp only
  split
  · exact .inl (lowByte_wordOf _ _)
  · exact .inr (lowByte_wordOf _ _)

/-- Settles O42: each mode by its definition; the 8-bit big-endian byte by `lowByte_bOperand_memoryBE`. -/
theorem operandByMode : Obligations.OperandByMode := fun s _ =>
  ⟨rfl, rfl, rfl, rfl, lowByte_bOperand_memoryBE s⟩

/-! ### The reference execution (R142) -/

/-- A register read back after a write to it, at every slot (R13). -/
theorem State.reg_setReg_self (s : State) (i : BitVec 2) (v : Word) :
    (s.setReg i v).reg i = if i = 0 then 0 else v := by
  split
  · next h => subst h; rfl
  · next h => exact s.reg_setReg_same v h

/-- An Operation writes one flag slot, then its destination. -/
theorem State.executeOperation_eq (s : State) (a dest : BitVec 2) (st : AluSettings) (is8bit : Bool)
    (b : Word) : ∃ w f v, s.executeOperation a dest st is8bit b = (s.setSlot w f).setReg dest v := by
  cases is8bit
  · exact ⟨.w16, _, _, rfl⟩
  · exact ⟨.w8, _, _, rfl⟩

/-- What an Operation that completes leaves alone, and the driver's advance (R142, log 14). -/
theorem State.executeOperation_advance_frame (s : State) (i : Instr) (a dest : BitVec 2)
    (st : AluSettings) (is8bit : Bool) (b : Word) :
    let t := (s.executeOperation a dest st is8bit b).advance i
    SameRegsBut dest s t ∧ SameMemory s t ∧ t.pc = Config.nextPc i s.inputs s.pc ∧ t.sp = s.sp ∧
      SamePorts s t := by
  obtain ⟨w, f, v, heq⟩ := s.executeOperation_eq a dest st is8bit b
  rw [heq]
  refine ⟨fun j hj => ?_, fun x => by simp, by simp, by simp, by simp, by simp, by simp⟩
  rw [State.reg_advance, State.reg_setReg_ne _ v hj, State.reg_setSlot]

@[simp] theorem State.executeOperation_w16_f16 (s : State) (a dest : BitVec 2) (st : AluSettings)
    (b : Word) : (s.executeOperation a dest st false b).f16 =
      ⟨(combine (s.reg a) b st).carry, (combine (s.reg a) b st).zero, (combine (s.reg a) b st).sign⟩ := by
  rw [State.executeOperation_w16, State.setReg_f16, State.setSlot_f16]

@[simp] theorem State.executeOperation_w16_f8 (s : State) (a dest : BitVec 2) (st : AluSettings)
    (b : Word) : (s.executeOperation a dest st false b).f8 = s.f8 := by
  rw [State.executeOperation_w16, State.setReg_f8, State.setSlot_f8_other]

@[simp] theorem State.executeOperation_w8_f8 (s : State) (a dest : BitVec 2) (st : AluSettings)
    (b : Word) : (s.executeOperation a dest st true b).f8 =
      ⟨(combine (lowByte (s.reg a)) (lowByte b) st).carry, (combine (lowByte (s.reg a)) (lowByte b) st).zero,
        (combine (lowByte (s.reg a)) (lowByte b) st).sign⟩ := by
  rw [State.executeOperation_w8, State.setReg_f8, State.setSlot_f8]

@[simp] theorem State.executeOperation_w8_f16 (s : State) (a dest : BitVec 2) (st : AluSettings)
    (b : Word) : (s.executeOperation a dest st true b).f16 = s.f16 := by
  rw [State.executeOperation_w8, State.setReg_f16, State.setSlot_f16_other]

theorem State.reg_executeOperation_w16 (s : State) (a dest : BitVec 2) (st : AluSettings) (b : Word) :
    (s.executeOperation a dest st false b).reg dest =
      if dest = 0 then 0 else (combine (s.reg a) b st).result := by
  rw [State.executeOperation_w16, State.reg_setReg_self]

theorem State.lowByte_reg_executeOperation_w8 (s : State) (a : BitVec 2) {dest : BitVec 2}
    (st : AluSettings) (b : Word) (h : dest ≠ 0) :
    lowByte ((s.executeOperation a dest st true b).reg dest) =
      (combine (lowByte (s.reg a)) (lowByte b) st).result := by
  rw [State.executeOperation_w8, State.reg_setReg_same _ _ h, w8Writeback, lowByte_wordOf]

/-- With destination slot 0 no register changes (R13, R143). -/
theorem SameRegsBut.sameRegs {s t : State} (h : SameRegsBut 0 s t) : SameRegs s t := by
  intro i
  by_cases hi : i = 0
  · subst hi; rfl
  · exact h i hi

/-- OP with the unit selector clear completes (R142). -/
theorem exec_op (a : BitVec 2) (m : SourceMode) (st : AluSettings) (is8bit : Bool) (s : State) :
    exec (.op a m st is8bit false) s =
      .next ((s.executeOperation a a st is8bit (s.bOperand m is8bit)).advance
        (.op a m st is8bit false)) := rfl

/-- CMP with the unit selector clear completes (R143). -/
theorem exec_cmp (a : BitVec 2) (m : SourceMode) (st : AluSettings) (is8bit : Bool) (s : State) :
    exec (.cmp a m st is8bit false) s =
      .next ((s.executeOperation a 0 st is8bit (s.bOperand m is8bit)).advance
        (.cmp a m st is8bit false)) := rfl

/-! ### The statements -/

/-- Settles O43: the 16-bit reference execution's result and flags, and the common frame. -/
theorem operationSixteenBitResult : Obligations.OperationSixteenBitResult := by
  intro a m st s
  obtain ⟨hregs, hmem, hdriver⟩ := s.executeOperation_advance_frame (.op a m st false false) a a st
    false (s.bOperand m false)
  exact ⟨_, exec_op a m st false s, s.reg_executeOperation_w16 a a st _, hregs,
    s.executeOperation_w16_f16 a a st _, s.executeOperation_w16_f8 a a st _, hmem, hdriver⟩

/-- Settles O44: the 8-bit reference execution's low byte and flags, and the common frame. -/
theorem operationEightBitResult : Obligations.OperationEightBitResult := by
  intro a m st s
  obtain ⟨hregs, hmem, hdriver⟩ := s.executeOperation_advance_frame (.op a m st true false) a a st
    true (s.bOperand m true)
  exact ⟨_, exec_op a m st true s, s.lowByte_reg_executeOperation_w8 a st _, hregs, rfl,
    s.executeOperation_w8_f8 a a st _, s.executeOperation_w8_f16 a a st _, hmem, hdriver⟩

/-- Settles O45: at each width, the flags of the reference execution, and the common frame with destination slot
0. -/
theorem comparisonResult : Obligations.ComparisonResult := by
  intro a m st s
  constructor
  · obtain ⟨hregs, hmem, hdriver⟩ := s.executeOperation_advance_frame (.cmp a m st false false) a 0 st
      false (s.bOperand m false)
    exact ⟨_, exec_cmp a m st false s, hregs.sameRegs, s.executeOperation_w16_f16 a 0 st _,
      s.executeOperation_w16_f8 a 0 st (s.bOperand m false), hmem, hdriver⟩
  · obtain ⟨hregs, hmem, hdriver⟩ := s.executeOperation_advance_frame (.cmp a m st true false) a 0 st
      true (s.bOperand m true)
    exact ⟨_, exec_cmp a m st true s, hregs.sameRegs, s.executeOperation_w8_f8 a 0 st _,
      s.executeOperation_w8_f16 a 0 st (s.bOperand m true), hmem, hdriver⟩

/-- Settles O46: the selector is looked at first. -/
theorem unitSelectorIsRefused : Obligations.UnitSelectorIsRefused := fun _ _ _ _ _ => ⟨rfl, rfl⟩

/-- A number minus itself is 0, without borrow (R135). -/
theorem combine_sub_self (x : Word) :
    combine x x ⟨false, true, false, true, false⟩ = ⟨0, true, true, false⟩ := by
  apply combine_eq_of_result_of_carry
  · rw [combine_sub_result]
    exact BitVec.sub_self x
  · rw [combine_sub_carry, decide_eq_true (le_refl _)]

/-- The AND with 0 is 0; flood carry gives the carry (R133). -/
theorem combine_and_zero (x : Word) :
    combine x 0 ⟨true, true, true, true, true⟩ = ⟨0, true, true, false⟩ := by
  apply combine_eq_of_result_of_carry
  · rw [table_flood_result]
    exact BitVec.and_zero
  · exact combine_flood_carry rfl (by decide) x 0

/-- An Operation whose ALU outputs are 0 with carry and zero clears its register and says so in the flags, slot 0
included (R142). -/
theorem exec_op_of_combine_zero {a : BitVec 2} {m : SourceMode} {st : AluSettings} {s : State}
    (h : combine (s.reg a) (s.bOperand m false) st = ⟨0, true, true, false⟩) :
    ∃ t, exec (.op a m st false false) s = .next t ∧ t.reg a = 0 ∧ t.f16 = ⟨true, true, false⟩ := by
  refine ⟨_, exec_op a m st false s, ?_, ?_⟩
  · rw [State.reg_advance, State.reg_executeOperation_w16, h, ite_self]
  · rw [State.advance_f16, State.executeOperation_w16_f16, h]

/-- Settles O47: both operands are the a register's old value. -/
theorem sameSlotUsesOldValueTwice : Obligations.SameSlotUsesOldValueTwice := by
  rintro a s rfl
  have hoperand : s.bOperand .register false = s.reg s.inputs.register := rfl
  constructor
  · refine ⟨_, exec_op _ .register _ false s, ?_⟩
    rw [State.reg_advance, State.reg_executeOperation_w16, hoperand, table_adder_result]
    split
    · next h => rw [h]; rfl
    · rfl
  · apply exec_op_of_combine_zero
    rw [hoperand, combine_sub_self]

/-- Settles O48: the ALU's outputs for an AND with 0. -/
theorem andWithZeroGivesKnownValue : Obligations.AndWithZeroGivesKnownValue := by
  intro a m s h
  apply exec_op_of_combine_zero
  rw [h, combine_and_zero]

/-- Settles O49: the W8 flags are a function of the two low bytes. -/
theorem eightBitComparisonIgnoresHighBytes : Obligations.EightBitComparisonIgnoresHighBytes := by
  intro a m st s s' t t' ha hb ht ht'
  rw [exec_cmp] at ht ht'
  cases ht
  cases ht'
  rw [State.advance_f8, State.advance_f8, State.executeOperation_w8_f8, State.executeOperation_w8_f8,
    ha, hb]

end Sys2Proof.Machine
end

section
/-! Load, Store, Jump, StackRead, StackWrite, MoreSpecific and the invalid rows at execution
(45_execute_contract.md R146 to R151, D9): results and frames under the driver's uninterpreted formulas. -/

namespace Sys2Proof.Machine

open Sys2Proof

/-! ### Load (R90, R94) -/

theorem lsIs8_iff (w : Bool) : lsIs8 w = true ↔ w = Config.lsEightBitWhen := beq_iff_eq

/-- The order an endianness bit means, by the polarity (log 17). -/
theorem lsOrder_eq (e : Bool) : lsOrder e = if e = Config.lsBigEndianWhen then .big else .little := by
  simp [lsOrder]

/-- A register write with the advance leaves everything else alone. -/
theorem State.setReg_advance_frame (s : State) (i : Instr) (r : BitVec 2) (v : Word) :
    let t := (s.setReg r v).advance i
    SameRegsBut r s t ∧ t.reg 0 = 0 ∧ SameFlags s t ∧ SameMemory s t ∧
      t.pc = Config.nextPc i s.inputs s.pc ∧ t.sp = s.sp ∧ SamePorts s t :=
  ⟨fun _ h => s.reg_setReg_ne v h, rfl, s.sameFlags_setReg r v, s.memRead8_setReg r v,
    by simp, by simp, by simp, by simp, by simp⟩

/-- LOAD completes (R90, log 20). -/
theorem exec_load (d b : BitVec 2) (m : LoadMode) (e w : Bool) (sh : BitVec 3) (s : State) :
    exec (.load d b m e w sh) s =
      .next ((s.setReg d (s.loadValue d m b e w sh)).advance (.load d b m e w sh)) := rfl

/-- An 8-bit Load's value has the loaded byte in bits 7:0 (log 18). -/
theorem State.lowByte_loadValue (s : State) (d b : BitVec 2) (m : LoadMode) (e : Bool) {w : Bool}
    (sh : BitVec 3) (h : w = Config.lsEightBitWhen) :
    lowByte (s.loadValue d m b e w sh) = s.loadByte m b e sh := by
  rw [State.loadValue, if_pos ((lsIs8_iff w).mpr h)]
  exact lowByte_wordOf _ _

/-- A 16-bit Load's value is the loaded word. -/
theorem State.loadValue_w16 (s : State) (d b : BitVec 2) (m : LoadMode) (e : Bool) {w : Bool}
    (sh : BitVec 3) (h : ¬ w = Config.lsEightBitWhen) :
    s.loadValue d m b e w sh = s.loadWord m b e sh := by
  rw [State.loadValue, if_neg (mt (lsIs8_iff w).mp h)]

/-- Settles O50: one register write with the loaded value, by width and mode. -/
theorem loadResult : Obligations.LoadResult := by
  intro d b m e w sh s
  obtain ⟨hregs, hzero, hflags, hmem, hpc, hsp, hports⟩ := s.setReg_advance_frame
    (.load d b m e w sh) d (s.loadValue d m b e w sh)
  refine ⟨_, exec_load d b m e w sh s, hregs, hzero, hflags, hmem, hpc, hsp, hports, fun hd => ?_⟩
  rw [State.reg_advance, State.reg_setReg_same _ _ hd, ← lsOrder_eq]
  dsimp only
  split
  · next h =>
    rw [State.lowByte_loadValue s d b m e sh h]
    cases m <;> rfl
  · next h =>
    rw [State.loadValue_w16 s d b m e sh h]
    cases m <;> rfl

/-! ### Store (R91, R94) -/

/-- A 16-bit write is an update of memory alone. -/
theorem State.memWrite16_eq (s : State) (o : ByteOrder) (a v : Word) :
    ∃ m, s.memWrite16 o a v = { s with mem := m } := by
  cases o <;> exact ⟨_, rfl⟩

/-- A Store is an update of memory alone (R22, log 20). -/
theorem State.storeValue_eq (s : State) (a v : Word) (e w : Bool) :
    ∃ m, s.storeValue a v e w = { s with mem := m } := by
  unfold State.storeValue
  split
  · exact ⟨_, rfl⟩
  · exact s.memWrite16_eq _ a v

/-- STORE completes (R91, log 20). -/
theorem exec_store (r b : BitVec 2) (m : StoreMode) (e w : Bool) (sh : BitVec 3) (s : State) :
    exec (.store r b m e w sh) s =
      .next ((s.storeValue (s.storeEA m b sh) (s.reg r) e w).advance (.store r b m e w sh)) := rfl

theorem State.storeValue_w8 (s : State) (a v : Word) (e : Bool) {w : Bool}
    (h : w = Config.lsEightBitWhen) :
    s.storeValue a v e w = s.memWrite8 a (byteToStore Config.storesHighByte v) :=
  if_pos ((lsIs8_iff w).mpr h)

theorem State.storeValue_w16 (s : State) (a v : Word) (e : Bool) {w : Bool}
    (h : ¬ w = Config.lsEightBitWhen) : s.storeValue a v e w = s.memWrite16 (lsOrder e) a v :=
  if_neg (mt (lsIs8_iff w).mp h)

/-- What a Store leaves in memory: its one byte or its two, read back, and every other byte as it was. -/
theorem State.storeValue_memory (s : State) (a v : Word) (e w : Bool) :
    if w = Config.lsEightBitWhen then
      (s.storeValue a v e w).memRead8 a =
          (if Config.storesHighByte then highByte v else lowByte v) ∧
        ∀ x, x ≠ a → (s.storeValue a v e w).memRead8 x = s.memRead8 x
    else
      (s.storeValue a v e w).memRead16 (if e = Config.lsBigEndianWhen then .big else .little) a = v ∧
        SameMemoryBut a (a + 1) s (s.storeValue a v e w) := by
  rw [← lsOrder_eq]
  split
  · next h =>
    rw [s.storeValue_w8 a v e h]
    exact ⟨s.memRead8_memWrite8_same a _, fun x hx => s.memRead8_memWrite8_ne _ hx⟩
  · next h =>
    rw [s.storeValue_w16 a v e h]
    exact ⟨s.memRead16_memWrite16_same (lsOrder e) a v, s.sameMemoryBut_memWrite16 (lsOrder e) a v⟩

/-- An update of memory with the advance leaves everything else alone. -/
theorem State.mem_advance_frame {s u : State} (i : Instr) (h : ∃ m, u = { s with mem := m }) :
    let t := u.advance i
    SameRegs s t ∧ SameFlags s t ∧ t.pc = Config.nextPc i s.inputs s.pc ∧ t.sp = s.sp ∧
      SamePorts s t := by
  obtain ⟨m, rfl⟩ := h
  exact ⟨fun _ => rfl, ⟨rfl, rfl⟩, rfl, rfl, rfl, rfl, rfl⟩

/-- Settles O51: one memory write at the mode's address, by width. -/
theorem storeResult : Obligations.StoreResult := by
  intro r b m e w sh s
  obtain ⟨hregs, hflags, hpc, hsp, hports⟩ := State.mem_advance_frame (.store r b m e w sh)
    (s.storeValue_eq (s.storeEA m b sh) (s.reg r) e w)
  refine ⟨_, exec_store r b m e w sh s, hregs, hflags, hpc, hsp, hports, ?_⟩
  have hmem := s.storeValue_memory (s.storeEA m b sh) (s.reg r) e w
  cases m <;> exact hmem

/-! ### Jump (R100, R146, R147) -/

/-- Settles O52: the flag of the slot JUMP_COND_WIDTH selects; index 0 is the constant true. -/
theorem jumpCondition : Obligations.JumpCondition :=
  ⟨Config.jumpCondWidth, fun _ _ => ⟨Bool.true_xor _, rfl, rfl, rfl⟩⟩

section

variable {s : State} {b : BitVec 2} {sh : BitVec 3} {inv : Bool} {k : BitVec 2}

/-- JUMP not taken advances. -/
theorem exec_jump_not_taken {call : Bool} (h : s.jumpTaken k inv = false) :
    exec (.jump b sh inv k call) s = .next (s.advance (.jump b sh inv k call)) := by
  simp [exec, execJump, h]

/-- JUMP taken that is no call goes to its target. -/
theorem exec_jump_taken (h : s.jumpTaken k inv = true) :
    exec (.jump b sh inv k false) s = .next (s.setPc (s.target b sh false)) := by
  simp [exec, execJump, h]

/-- JUMP taken that is a call enters the subroutine. -/
theorem exec_jump_call (h : s.jumpTaken k inv = true) :
    exec (.jump b sh inv k true) s = .next (s.enterSubroutine (s.target b sh true)) := by
  simp [exec, execJump, h]

end

/-- Settles O53: not taken, the advance; taken, and so no call, the target. -/
theorem jumpResult : Obligations.JumpResult := by
  intro b sh inv k call s h
  cases htaken : s.jumpTaken k inv with
  | false =>
    exact ⟨_, exec_jump_not_taken htaken, fun _ => rfl, ⟨rfl, rfl⟩, fun _ => rfl, rfl,
      ⟨rfl, rfl, rfl⟩, rfl⟩
  | true =>
    obtain rfl : call = false := h.resolve_right (by simp [htaken])
    exact ⟨_, exec_jump_taken htaken, fun _ => rfl, ⟨rfl, rfl⟩, fun _ => rfl, rfl,
      ⟨rfl, rfl, rfl⟩, rfl⟩

/-- Settles O54: the fields of `enterSubroutine`. -/
theorem subroutineCallResult : Obligations.SubroutineCallResult := by
  intro b sh inv k s htaken
  exact ⟨_, exec_jump_call htaken, rfl, rfl, rfl, fun _ => rfl, ⟨rfl, rfl⟩, fun _ => rfl, rfl, rfl⟩

/-! ### StackRead and StackWrite (R103 to R106) -/

/-- The instruction of a stack family with its fields. -/
def stackInstr (k : StackKind) (r b : BitVec 2) (f c : BitVec 3) (v : BitVec 2) : Instr :=
  match k with
  | .stackRead => .sread r b f c v
  | .stackWrite => .swrite r b f c v

/-- SREAD and SWRITE complete (log 21). -/
theorem exec_stackInstr (k : StackKind) (r b : BitVec 2) (f c : BitVec 3) (v : BitVec 2) (s : State) :
    exec (stackInstr k r b f c v) s =
      .next ((s.stackAccess k r b f c v).advance (stackInstr k r b f c v)) := by
  cases k <;> rfl

/-- A stack access's store is an update of memory alone. -/
theorem State.stackStore_eq (s : State) (k : StackKind) (r : BitVec 2) (a : Word) :
    ∃ m, s.stackStore k r a = { s with mem := m } := by
  unfold State.stackStore
  split
  · exact ⟨_, rfl⟩
  · exact s.memWrite16_eq _ a _

section

variable (s : State) {k : StackKind} (r b : BitVec 2) (f c : BitVec 3) (v : BitVec 2)

/-- A stack access that writes its register. -/
theorem State.stackAccess_register (h : Config.stackWritesRegister k = true) :
    s.stackAccess k r b f c v =
      (s.setReg r (s.stackValue k r (s.stackEA k b f c v))).setSp (s.stackSp k b f c v) := by
  rw [State.stackAccess, if_pos h]

/-- A stack access that stores its register. -/
theorem State.stackAccess_store (h : ¬ Config.stackWritesRegister k = true) :
    s.stackAccess k r b f c v =
      (s.stackStore k r (s.stackEA k b f c v)).setSp (s.stackSp k b f c v) := by
  rw [State.stackAccess, if_neg h]

end

/-- What a stack access leaves alone whatever its direction, and the next stack pointer. -/
theorem State.stackAccess_advance_frame (s : State) (i : Instr) (k : StackKind) (r b : BitVec 2)
    (f c : BitVec 3) (v : BitVec 2) :
    let t := (s.stackAccess k r b f c v).advance i
    SameFlags s t ∧ SamePorts s t ∧ t.pc = Config.nextPc i s.inputs s.pc ∧
      t.sp = s.stackSp k b f c v := by
  by_cases h : Config.stackWritesRegister k = true
  · rw [s.stackAccess_register r b f c v h]
    exact ⟨s.sameFlags_setReg r _, ⟨by simp, by simp, by simp⟩, by simp, by simp⟩
  · rw [s.stackAccess_store r b f c v h]
    obtain ⟨m, hm⟩ := s.stackStore_eq k r (s.stackEA k b f c v)
    rw [hm]
    exact ⟨⟨rfl, rfl⟩, ⟨rfl, rfl, rfl⟩, rfl, rfl⟩

/-- Settles O55: one register write or one memory write, by direction and width. -/
theorem stackAccessResult : Obligations.StackAccessResult := by
  intro k r b f c v s
  obtain ⟨hflags, hports, hpc, hsp⟩ := s.stackAccess_advance_frame (stackInstr k r b f c v) k r b f c v
  refine ⟨_, exec_stackInstr k r b f c v s, hflags, hports, hpc, hsp, ?_⟩
  dsimp only
  split
  · next h =>
    rw [s.stackAccess_register r b f c v h]
    refine ⟨s.memRead8_setReg r _, fun j hj => s.reg_setReg_ne _ hj, rfl, fun hr => ?_⟩
    rw [State.reg_advance, State.reg_setSp, State.reg_setReg_same _ _ hr, State.stackValue]
    cases Config.stackWidth k with
    | w8 => exact lowByte_wordOf _ _
    | w16 => rfl
  · next h =>
    rw [s.stackAccess_store r b f c v h]
    constructor
    · obtain ⟨m, hm⟩ := s.stackStore_eq k r (s.stackEA k b f c v)
      rw [hm]
      exact fun _ => rfl
    · rw [State.stackStore]
      cases Config.stackWidth k with
      | w8 => exact ⟨s.memRead8_memWrite8_same _ _, fun x hx => s.memRead8_memWrite8_ne _ hx⟩
      | w16 =>
        exact ⟨s.memRead16_memWrite16_same (Config.stackOrder k) _ _,
          s.sameMemoryBut_memWrite16 (Config.stackOrder k) _ _⟩

/-! ### MoreSpecific and the invalid rows -/

/-- Settles O56: the refusal carries the secondary opcode. -/
theorem moreSpecificIsRefused : Obligations.MoreSpecificIsRefused := fun _ _ => rfl

/-- Settles O57: each row's error becomes its fault. -/
theorem invalidWordFaults : Obligations.InvalidWordFaults := fun _ =>
  ⟨rfl, rfl, rfl, rfl, rfl, rfl, rfl, rfl⟩

end Sys2Proof.Machine
end

section
/-! Steps (45_execute_contract.md R140, R151, R152; 70_reset_and_hazards.md section 3): what one step is, what
each family can change, the invariant, and when a run goes on. -/

namespace Sys2Proof.Machine

open Sys2Proof

/-! ### One step by the driver's next action -/

theorem step_nil {s : State} (h : s.pending = []) : step s = .fault .driverStopped := by
  rw [step, h]

theorem step_present {s : State} {src : WordSource} {inp : Inputs} {rest : List DriverAction}
    (h : s.pending = .present src inp :: rest) :
    step s = exec (s.presentedInstr src) (s.accept rest inp) := by
  rw [step, h]
  cases src <;> rfl

theorem step_perform {s : State} {op : BlockOp} {rest : List DriverAction}
    (h : s.pending = .perform op :: rest) :
    step s = State.perform { s with pending := rest } op := by
  rw [step, h]

/-- Settles O32: the fetch reads back the stored word. -/
theorem storedWordIsFetched : Obligations.StoredWordIsFetched := by
  intro s o w inp rest h
  have hpending : (s.memWrite16 o s.pc w).pending = .present (.atPc o) inp :: rest := by
    rw [State.memWrite16_pending, h]
  rw [step_present hpending, State.presentedInstr, State.presentedWord, State.memWrite16_pc,
    State.memRead16_memWrite16_same]

/-- Settles O36: by the source of the word; `withFetchWord` hands it over with the inputs that stand on the
port. -/
theorem stepRunsThePresentedInstruction : Obligations.StepRunsThePresentedInstruction := by
  refine ⟨fun s w inp rest h => (step_present h).trans rfl,
    fun s o inp rest h => (step_present h).trans rfl, fun s w => ?_⟩
  rw [State.withFetchWord, tableWord_toNat]
  rfl

/-- Settles O37: a step by `step_perform`; each operation's answer and state by its own definition. -/
theorem stepPerformsBlockOperations : Obligations.StepPerformsBlockOperations := by
  refine ⟨fun s op rest h => ⟨fun r t hcall => ?_, fun e hcall => ?_⟩, fun s h => step_nil h,
    fun s => ⟨fun w d h => ?_, fun a b st slot => ?_, fun a b st slot => ?_, ⟨rfl, rfl, rfl, rfl⟩,
      fun v => ⟨rfl, rfl, rfl, rfl⟩, fun w => ⟨rfl, rfl, rfl, rfl⟩, fun v w => ⟨?_, rfl, rfl, rfl⟩,
      fun a => ⟨rfl, rfl, rfl⟩, fun a v => rfl, fun a v => ⟨rfl, rfl⟩⟩⟩
  · rw [step_perform h, State.perform, hcall]
  · rw [step_perform h, State.perform, hcall]
    rfl
  · rw [State.callOp, h]
    rfl
  · cases slot <;> rfl
  · cases slot <;> rfl
  · cases w <;> rfl

/-- Settles O58: the operations put first are what is pending first; an error depends on the operation only. -/
theorem calledOperationsRunNextInOrder : Obligations.CalledOperationsRunNextInOrder := by
  intro s op ops
  have hstep : step (s.callNext (op :: ops)) = State.perform (s.callNext ops) op := rfl
  refine ⟨hstep, fun e he => ?_, rfl⟩
  rw [hstep, State.perform_fault_iff]
  exact ⟨e, ((s.callNext ops).callOp_error_iff op e).mpr ((s.callOp_error_iff op e).mp he), rfl⟩

/-! ### The invariant -/

/-- Settles O33: no cell is listed. -/
theorem resetMeetsInvariant : Obligations.ResetMeetsInvariant := Memory.wf_reset

/-- A stack access keeps the canonical form. -/
theorem State.wf_stackAccess (s : State) (k : StackKind) (r b : BitVec 2) (f c : BitVec 3) (v : BitVec 2)
    (h : s.mem.wf = true) : (s.stackAccess k r b f c v).mem.wf = true := by
  by_cases hk : Config.stackWritesRegister k = true
  · rw [s.stackAccess_register r b f c v hk, State.setSp_mem, State.setReg_mem]
    exact h
  · rw [s.stackAccess_store r b f c v hk, State.setSp_mem]
    exact s.wf_stackStore k r _ h

/-- A Jump leaves memory alone. -/
theorem exec_jump_mem {s t : State} {b : BitVec 2} {sh : BitVec 3} {inv : Bool} {k : BitVec 2} {call : Bool}
    (h : exec (.jump b sh inv k call) s = .next t) : t.mem = s.mem := by
  obtain ⟨-, rfl⟩ | ⟨-, -, rfl⟩ | ⟨-, -, rfl⟩ := execJump_cases h
  · rfl
  · rfl
  · rfl

/-- Every instruction keeps the canonical form. -/
theorem wf_exec {i : Instr} {s t : State} (h : exec i s = .next t) (hs : s.mem.wf = true) :
    t.mem.wf = true := by
  cases i with
  | op a m st w u | cmp a m st w u =>
    obtain ⟨-, rfl⟩ := State.runOperation_next h
    rw [State.advance_mem, State.executeOperation_mem]
    exact hs
  | load d b m e w sh =>
    rw [exec_load] at h
    cases h
    rw [State.advance_mem, State.setReg_mem]
    exact hs
  | store r b m e w sh =>
    rw [exec_store] at h
    cases h
    exact s.wf_storeValue _ _ e w hs
  | jump b sh inv k call =>
    rw [exec_jump_mem h]
    exact hs
  | sread r b f c v =>
    cases h
    exact s.wf_stackAccess .stackRead r b f c v hs
  | swrite r b f c v =>
    cases h
    exact s.wf_stackAccess .stackWrite r b f c v hs
  | more x | invalid5 | invalid8 | invalid9 | invalidA | invalidB | invalidC | invalidD | invalidE => cases h

/-- Settles O34: a step that goes on is an execution or a block operation, and both keep the canonical form. -/
theorem stepKeepsInvariant : Obligations.StepKeepsInvariant := by
  intro s t hs h
  obtain ⟨src, inp, rest, -, hexec⟩ | ⟨op, rest, r, u, -, hcall, rfl⟩ := step_next h
  · exact wf_exec hexec hs
  · exact State.wf_callOp (t := u) hcall hs

/-! ### What each family can change (R151) -/

/-- A Jump changes the driver's side only: the stack pointer and what is pending by a taken call (log 35). -/
theorem exec_jump_frame {s t : State} {b : BitVec 2} {sh : BitVec 3} {inv : Bool} {k : BitVec 2} {call : Bool}
    (h : exec (.jump b sh inv k call) s = .next t) :
    SameRegs s t ∧ SameFlags s t ∧ SameMemory s t ∧
      ((call = true ∧ s.jumpTaken k inv = true) ∨ t.sp = s.sp ∧ t.pending = s.pending) ∧
      t.inputs = s.inputs ∧ t.reply = s.reply := by
  obtain ⟨-, rfl⟩ | ⟨-, -, rfl⟩ | ⟨htaken, hcall, rfl⟩ := execJump_cases h
  · exact ⟨fun _ => rfl, ⟨rfl, rfl⟩, fun _ => rfl, .inr ⟨rfl, rfl⟩, rfl, rfl⟩
  · exact ⟨fun _ => rfl, ⟨rfl, rfl⟩, fun _ => rfl, .inr ⟨rfl, rfl⟩, rfl, rfl⟩
  · exact ⟨fun _ => rfl, ⟨rfl, rfl⟩, fun _ => rfl, .inl ⟨hcall, htaken⟩, rfl, rfl⟩

/-- Settles O40: instruction by instruction, from its frame. -/
theorem whatEachFamilyCanChange : Obligations.WhatEachFamilyCanChange := by
  intro i s t h
  cases i with
  | op a m st w u =>
    obtain ⟨rfl, rfl⟩ := State.runOperation_next h
    obtain ⟨-, hmem, -, hsp, hinputs, hpending, hreply⟩ :=
      s.executeOperation_advance_frame (.op a m st w false) a a st w (s.bOperand m w)
    exact ⟨.inr (.inl ⟨a, m, st, w, rfl⟩), .inr ⟨a, m, st, w, .inl rfl⟩, .inl hmem, .inl hsp,
      .inl hpending, hinputs, hreply⟩
  | cmp a m st w u =>
    obtain ⟨rfl, rfl⟩ := State.runOperation_next h
    obtain ⟨hregs, hmem, -, hsp, hinputs, hpending, hreply⟩ :=
      s.executeOperation_advance_frame (.cmp a m st w false) a 0 st w (s.bOperand m w)
    exact ⟨.inl hregs.sameRegs, .inr ⟨a, m, st, w, .inr rfl⟩, .inl hmem, .inl hsp, .inl hpending,
      hinputs, hreply⟩
  | load d b m e w sh =>
    rw [exec_load] at h
    cases h
    obtain ⟨-, -, hflags, hmem, -, hsp, hinputs, hpending, hreply⟩ :=
      s.setReg_advance_frame (.load d b m e w sh) d (s.loadValue d m b e w sh)
    exact ⟨.inr (.inr (.inl ⟨d, b, m, e, w, sh, rfl⟩)), .inl hflags, .inl hmem, .inl hsp,
      .inl hpending, hinputs, hreply⟩
  | store r b m e w sh =>
    rw [exec_store] at h
    cases h
    obtain ⟨hregs, hflags, -, hsp, hinputs, hpending, hreply⟩ := State.mem_advance_frame
      (.store r b m e w sh) (s.storeValue_eq (s.storeEA m b sh) (s.reg r) e w)
    exact ⟨.inl hregs, .inl hflags, .inr (.inl ⟨r, b, m, e, w, sh, rfl⟩), .inl hsp, .inl hpending,
      hinputs, hreply⟩
  | jump b sh inv k call =>
    obtain ⟨hregs, hflags, hmem, ⟨rfl, htaken⟩ | ⟨hsp, hpending⟩, hinputs, hreply⟩ := exec_jump_frame h
    · exact ⟨.inl hregs, .inl hflags, .inl hmem, .inr (.inr ⟨b, sh, inv, k, rfl, htaken⟩),
        .inr ⟨b, sh, inv, k, rfl, htaken⟩, hinputs, hreply⟩
    · exact ⟨.inl hregs, .inl hflags, .inl hmem, .inl hsp, .inl hpending, hinputs, hreply⟩
  | sread r b f c v =>
    cases h
    obtain ⟨hflags, ⟨hinputs, hpending, hreply⟩, -⟩ :=
      s.stackAccess_advance_frame (.sread r b f c v) .stackRead r b f c v
    exact ⟨.inr (.inr (.inr ⟨r, b, f, c, v, .inl rfl⟩)), .inl hflags,
      .inr (.inr ⟨r, b, f, c, v, .inl rfl⟩), .inr (.inl ⟨r, b, f, c, v, .inl rfl⟩), .inl hpending,
      hinputs, hreply⟩
  | swrite r b f c v =>
    cases h
    obtain ⟨hflags, ⟨hinputs, hpending, hreply⟩, -⟩ :=
      s.stackAccess_advance_frame (.swrite r b f c v) .stackWrite r b f c v
    exact ⟨.inr (.inr (.inr ⟨r, b, f, c, v, .inr rfl⟩)), .inl hflags,
      .inr (.inr ⟨r, b, f, c, v, .inr rfl⟩), .inr (.inl ⟨r, b, f, c, v, .inr rfl⟩), .inl hpending,
      hinputs, hreply⟩
  | more x | invalid5 | invalid8 | invalid9 | invalidA | invalidB | invalidC | invalidD | invalidE => cases h

/-! ### When a run goes on -/

/-- A block operation as a step goes on exactly when it cannot err. -/
theorem State.perform_next_iff (s : State) (op : BlockOp) :
    (∃ t, s.perform op = .next t) ↔ opOk op = true := by
  rw [← s.callOp_ok_iff op]
  rcases s.perform_cases op with ⟨r, t, hcall, hstep⟩ | ⟨e, hcall, hstep⟩ <;> simp [hcall, hstep]

/-- Settles O59: by the next action, through the rules for instructions and for block operations. -/
theorem stepGoesOnExactlyWhenItsActionRuns : Obligations.StepGoesOnExactlyWhenItsActionRuns := by
  refine fun s => ⟨?_, fun o inp rest h => ?_⟩
  · rcases hp : s.pending with _ | ⟨⟨src, inp⟩ | op, rest⟩
    · simp [step_nil hp]
    · rw [step_present hp, exec_next_iff]
      simp [State.nextActionOk, hp]
    · rw [step_perform hp, State.perform_next_iff]
      simp [State.nextActionOk, hp]
  · rw [step_present h]
    exact exec_next_iff _ _

/-! ### Runs that meet no error and no refusal -/

/-- Whether a list of actions meets no error and no refusal whatever the state, the saving operations of its calls
included: the premise of the statement on runs. -/
def ScriptOk (l : List DriverAction) : Prop := ∀ x ∈ l, actionOk x = true ∧ savesOk x

theorem ScriptOk.tail {x : DriverAction} {l : List DriverAction} (h : ScriptOk (x :: l)) : ScriptOk l :=
  fun y hy => h y (List.mem_cons_of_mem x hy)

/-- Operations that cannot err may be put first. -/
theorem ScriptOk.perform_append {ops : List BlockOp} {l : List DriverAction}
    (hops : ∀ op ∈ ops, opOk op = true) (h : ScriptOk l) :
    ScriptOk (ops.map DriverAction.perform ++ l) := by
  intro x hx
  obtain hx | hx := List.mem_append.mp hx
  · obtain ⟨op, hop, rfl⟩ := List.mem_map.mp hx
    exact ⟨hops op hop, trivial⟩
  · exact h x hx

/-- An instruction leaves what the driver does next alone, or it is a call that puts its saving operations first
(log 13). -/
theorem exec_pending {i : Instr} {s t : State} (h : exec i s = .next t) :
    t.pending = s.pending ∨
      isCall i = true ∧ ∃ pc sp target,
        t.pending = (Config.callSave s.inputs pc sp target).map DriverAction.perform ++ s.pending := by
  obtain ⟨-, -, -, -, hpending | ⟨b, sh, inv, k, rfl, htaken⟩, -, -⟩ := whatEachFamilyCanChange i s t h
  · exact .inl hpending
  · rw [exec_jump_call htaken] at h
    cases h
    exact .inr ⟨rfl, _, _, _, rfl⟩

/-- A handed-over word of an error-free script executes, and what is then pending is error-free. -/
theorem ScriptOk.step_given {s : State} {w : Word} {inp : Inputs} {rest : List DriverAction}
    (hp : s.pending = .present (.given w) inp :: rest) (h : ScriptOk s.pending) :
    ∃ t, step s = .next t ∧ ScriptOk t.pending := by
  rw [hp] at h
  obtain ⟨hruns, hsaves⟩ := h _ List.mem_cons_self
  obtain ⟨t, hexec⟩ := (exec_next_iff (decodeRow w) (s.accept rest inp)).mpr hruns
  refine ⟨t, (step_present hp).trans hexec, ?_⟩
  obtain hpending | ⟨hcall, pc, sp, target, hpending⟩ := exec_pending hexec
  · rw [hpending]
    exact h.tail
  · rw [hpending]
    exact h.tail.perform_append (hsaves hcall pc sp target)

/-- An operation of an error-free script is performed, and the rest is pending. -/
theorem ScriptOk.step_perform {s : State} {op : BlockOp} {rest : List DriverAction}
    (hp : s.pending = .perform op :: rest) (h : ScriptOk s.pending) :
    ∃ t, step s = .next t ∧ ScriptOk t.pending := by
  rw [hp] at h
  obtain ⟨hop, -⟩ := h _ List.mem_cons_self
  obtain ⟨t, hstep⟩ := (State.perform_next_iff { s with pending := rest } op).mpr hop
  refine ⟨t, (Machine.step_perform hp).trans hstep, ?_⟩
  obtain ⟨r, u, hcall, rfl⟩ := State.perform_next hstep
  obtain ⟨-, -, -, hpending⟩ := State.callOp_driver hcall
  have hrest : u.pending = rest := hpending
  exact hrest ▸ h.tail

/-- With an error-free script the driver stops, or the step goes on with an error-free script. -/
theorem ScriptOk.step {s : State} (h : ScriptOk s.pending) :
    Machine.step s = .fault .driverStopped ∨ ∃ t, Machine.step s = .next t ∧ ScriptOk t.pending := by
  rcases hp : s.pending with _ | ⟨⟨w | o, inp⟩ | op, rest⟩
  · exact .inl (step_nil hp)
  · exact .inr (h.step_given hp)
  · obtain ⟨hfetch, -⟩ := h (.present (.atPc o) inp) (hp ▸ List.mem_cons_self)
    cases hfetch
  · exact .inr (h.step_perform hp)

/-- Settles O41: by induction on the number of steps, an error-free script stays one. -/
theorem runEndsOnlyAtErrorsAndRefusals : Obligations.RunEndsOnlyAtErrorsAndRefusals := by
  intro k
  induction k with
  | zero => exact fun _ _ => trivial
  | succ k ih =>
    intro s h
    rcases ScriptOk.step h with hstop | ⟨t, hstep, ht⟩
    · refine ⟨hstop ▸ trivial, fun t ht => ?_⟩
      cases hstop.symm.trans ht
    · refine ⟨hstep ▸ trivial, fun u hu => ?_⟩
      cases hstep.symm.trans hu
      exact ih t ht

end Sys2Proof.Machine
end
